-- ==== Sys2Proof/Word.lean ====
section
/-! DEFINITION. The block's one datum, the byte (00_scope.md R8), the wire constants (30_encoding.md R70, R71), the
names of the two state codes (10_state.md R21, R22), the delivery kinds and operands (30_encoding.md R79, R88) and the
input events (00_scope.md R6). -/

namespace Sys2Proof

/-- Every datum on the channel and in every buffer (R8). -/
abbrev Byte := BitVec 8

/-- PEND_LEN bytes, fixed 8 (R7): the operand of `REQ` and the contents of PBUF (R27). -/
abbrev Payload := Vector Byte 8

/-- Start (R70). -/
abbrev STX : Byte := 0x02#8
/-- Escape (R70). -/
abbrev DLE : Byte := 0x10#8
/-- End of block (R70). -/
abbrev ETX : Byte := 0x03#8
/-- Negative acknowledge (R70). -/
abbrev NAK : Byte := 0x15#8

/-- The three single control bytes (R71); ETX is not among them. -/
abbrev CTRL : List Byte := [STX, DLE, NAK]

/-- `XOR(list)`, with `XOR([]) = 0x00` (R9). -/
def xorAll : List Byte → Byte
  | [] => 0x00#8
  | b :: l => b ^^^ xorAll l

/-- FrameState (R21). -/
inductive FrameState where
  | resync | idle | collecting | dleSeen | verifyBcc
  deriving DecidableEq, Repr

/-- The codes of R21. -/
def FrameState.code : FrameState → BitVec 3
  | .resync => 0b000#3
  | .idle => 0b001#3
  | .collecting => 0b010#3
  | .dleSeen => 0b011#3
  | .verifyBcc => 0b100#3

/-- Reading a code; the reserved codes 0b101, 0b110 and 0b111 name no state (R21, R34). -/
def FrameState.ofCode (c : BitVec 3) : Option FrameState :=
  if c = 0b000#3 then some .resync
  else if c = 0b001#3 then some .idle
  else if c = 0b010#3 then some .collecting
  else if c = 0b011#3 then some .dleSeen
  else if c = 0b100#3 then some .verifyBcc
  else none

/-- SessionState (R22). -/
inductive SessionState where
  | handshakeStart | handshakeConfirm | logging
  deriving DecidableEq, Repr

/-- The codes of R22. -/
def SessionState.code : SessionState → BitVec 2
  | .handshakeStart => 0b00#2
  | .handshakeConfirm => 0b01#2
  | .logging => 0b10#2

/-- Reading a code; the reserved code 0b11 names no state (R22, R34). -/
def SessionState.ofCode (c : BitVec 2) : Option SessionState :=
  if c = 0b00#2 then some .handshakeStart
  else if c = 0b01#2 then some .handshakeConfirm
  else if c = 0b10#2 then some .logging
  else none

/-- The delivery kind K (R79). -/
inductive Kind where
  | stx | dle | nak | data
  deriving DecidableEq, Repr

/-- The codes of R79; every 2-bit code is used. -/
def Kind.code : Kind → BitVec 2
  | .stx => 0b00#2
  | .dle => 0b01#2
  | .nak => 0b10#2
  | .data => 0b11#2

/-- Reading a kind code; total (R79). -/
def Kind.ofCode (c : BitVec 2) : Kind :=
  if c = 0b00#2 then .stx
  else if c = 0b01#2 then .dle
  else if c = 0b10#2 then .nak
  else .data

/-- A delivery with its operands K, blk and bcc (R79, R88): a control byte's blk and bcc are fixed by its kind. -/
inductive Delivery where
  | stx
  | dle
  | nak
  | data (blk : List Byte) (bcc : Byte)
  deriving DecidableEq, Repr

def Delivery.kind : Delivery → Kind
  | .stx => .stx
  | .dle => .dle
  | .nak => .nak
  | .data _ _ => .data

/-- The delivered byte list: `[c]` for a one-byte delivery (R88). -/
def Delivery.blk : Delivery → List Byte
  | .stx => [STX]
  | .dle => [DLE]
  | .nak => [NAK]
  | .data blk _ => blk

/-- The BCC for a DATA delivery and none otherwise (R88). -/
def Delivery.bcc : Delivery → Option Byte
  | .stx => none
  | .dle => none
  | .nak => none
  | .data _ bcc => some bcc

/-- One input event (R6). -/
inductive Event where
  | rxb (b : Byte)      -- one byte received from the channel
  | rxt                 -- a channel read that timed out with no byte
  | req (p : Payload)   -- a pending-command load
  | rst                 -- reset
  deriving DecidableEq, Repr

end Sys2Proof
end

