-- ==== Sys2Proof/Config.lean ====
section
/-! DEFINITION. The implementation parameters (00_scope.md R7, 10_state.md R33) with their defaults, and the model's one
free value. PEND_LEN is the constant 8 of `Payload`; PLATFORM_MAP (20_memory.md R58) is the integrator's and nothing of the
block reads it. -/

namespace Sys2Proof

/-- What a load into a full pending slot does (R7, U7). -/
inductive PendPolicy where
  | reject | overwrite
  deriving DecidableEq, Repr

/-- RX_RESET_STATE: FrameState after reset, RESYNC or IDLE only (R7, U6). -/
inductive RxResetState where
  | resync | idle
  deriving DecidableEq, Repr

def RxResetState.frameState : RxResetState → FrameState
  | .resync => .resync
  | .idle => .idle

/-- The parameters of R7. No event writes them (R33). A legal configuration has `1 ≤ maxBlock`. -/
structure Config where
  maxBlock     : Nat
  pendPolicy   : PendPolicy
  rxResetState : RxResetState
  diagEn       : Bool
  logCmd       : List Byte
  deriving DecidableEq, Repr

/-- The defaults of R7. -/
def Config.default : Config :=
  { maxBlock := 20, pendPolicy := .reject, rxResetState := .resync, diagEn := true,
    logCmd := [0xEE#8, 0x00#8, 0x00#8] }

/-- FREE VALUE (log entry 9): the bytes that `RST` leaves in BUF and PBUF, "unspecified (any value)" (R35, R230, U3,
U4). The argument counts draws. It has no body, so nothing can be proved about it. -/
opaque Config.freeByte : Nat → Byte

end Sys2Proof
end

