-- ==== Sys2Proof/Syntax.lean ====
section
/-! DEFINITION. The instructions: the rows of spec/opcode_table.json (30_encoding.md R86). -/

namespace Sys2Proof

/-- One constructor per mnemonic of the table. A constructor's operand is what the row's fixed bits leave open: the received
byte `b` of a receiver row (R80), the delivery of a session row that matches several kinds (R81, R88), the payload of an
encoder row (R82) or of a `REQ` (R83). -/
inductive Instr where
  -- receiver rows (RW), 41_receiver.md
  | rxResyncStx                        -- R121
  | rxResyncDiscard (b : Byte)         -- R122
  | rxIdleStx                          -- R123
  | rxIdleDle                          -- R124
  | rxIdleNak                          -- R125
  | rxIdleStart (b : Byte)             -- R126
  | rxCollDle                          -- R127
  | rxCollAppend (b : Byte)            -- R128
  | rxCollOvf (b : Byte)               -- R129
  | rxDlesLit                          -- R130
  | rxDlesOvf                          -- R131
  | rxDlesEtx                          -- R132
  | rxDlesErr (b : Byte)               -- R133
  | rxBccOk (b : Byte)                 -- R134
  | rxBccBad (b : Byte)                -- R135
  -- session rows (SW), 42_session.md
  | scHssStx                           -- R151
  | scHssDle                           -- R152
  | scHssIgn (d : Delivery)            -- R153
  | scHscDle                           -- R154
  | scHscRej (d : Delivery)            -- R155
  | scLogStxPend                       -- R156
  | scLogStxIdle                       -- R157
  | scLogDleSend                       -- R158
  | scLogDleNop                        -- R159
  | scLogData (d : Delivery)           -- R160
  -- encoder rows (TXC), 40_codec.md
  | txNone                             -- R101
  | txCtrl (c : Byte)                  -- R102
  | txFrame (p : List Byte)            -- R103
  -- host and channel events (HE), 43_host.md and 70_reset_and_hazards.md
  | evRxt                              -- R180
  | evReqAccept (p : Payload)          -- R181
  | evReqBusy (p : Payload)            -- R182
  | evReqOverwrite (p : Payload)       -- R183
  | evRst                              -- R230
  deriving DecidableEq, Repr

end Sys2Proof
end

