-- ==== Sys2Proof/WellFormed.lean ====
section
/-! DEFINITION. Which operands each row admits (30_encoding.md R86: the match, the excluded bytes and the kinds of each row;
10_state.md R32: a delivered block is not empty). -/

namespace Sys2Proof

/-- A DATA delivery carries at least one byte (R32, R134); a control delivery is fixed. -/
def Delivery.wf : Delivery → Bool
  | .stx => true
  | .dle => true
  | .nak => true
  | .data blk _ => !blk.isEmpty

/-- The row's operands are ones its encoding admits. -/
def Instr.wf : Instr → Bool
  | .rxResyncStx => true
  | .rxResyncDiscard b => b != STX
  | .rxIdleStx => true
  | .rxIdleDle => true
  | .rxIdleNak => true
  | .rxIdleStart b => decide (b ∉ CTRL)
  | .rxCollDle => true
  | .rxCollAppend b => b != DLE
  | .rxCollOvf b => b != DLE
  | .rxDlesLit => true
  | .rxDlesOvf => true
  | .rxDlesEtx => true
  | .rxDlesErr b => b != DLE && b != ETX
  | .rxBccOk _ => true
  | .rxBccBad _ => true
  | .scHssStx => true
  | .scHssDle => true
  | .scHssIgn d => (d.kind == .nak || d.kind == .data) && d.wf
  | .scHscDle => true
  | .scHscRej d => d.kind != .dle && d.wf
  | .scLogStxPend => true
  | .scLogStxIdle => true
  | .scLogDleSend => true
  | .scLogDleNop => true
  | .scLogData d => (d.kind == .nak || d.kind == .data) && d.wf
  | .txNone => true
  | .txCtrl c => decide (c ∈ CTRL)
  | .txFrame p =>
    match p with
    | [] => false
    | [c] => decide (c ∉ CTRL)
    | _ :: _ :: _ => true
  | .evRxt => true
  | .evReqAccept _ => true
  | .evReqBusy _ => true
  | .evReqOverwrite _ => true
  | .evRst => true

end Sys2Proof
end

