-- ==== Sys2Proof/Decode.lean ====
section
/-! DEFINITION. The event decode map (30_encoding.md sections 3 and 6): step words, the row each selects, the encoder that
gives a row its step word, and the machine-readable table of R91. -/

namespace Sys2Proof

/-! ### Step words -/

/-- LEN against MAX_BLOCK, the guard of the rows APPEND/OVF and LIT/OVF (R30, R80). `beyond` is no row's guard (R24). -/
inductive Room where
  | left    -- LEN < MAX_BLOCK
  | full    -- LEN = MAX_BLOCK
  | beyond  -- LEN > MAX_BLOCK
  deriving DecidableEq, Repr

/-- What selects a row: the word of the row's format with, beside it, the guards (R80, R83) and operands (R88) that the spec
keeps outside the word. -/
inductive StepWord where
  | rw (w : BitVec 11) (room : Room) (sumZero : Bool)                 -- R80; sumZero is ACC ^ b = 0
  | sw (w : BitVec 5) (blk : List Byte) (bcc : Option Byte)           -- R81, R88
  | txc (p : List Byte)                                               -- R82
  | rxt                                                               -- R83
  | req (p : Payload) (pv : Bool) (policy : PendPolicy)               -- R83
  | rst                                                               -- R83
  deriving DecidableEq, Repr

/-- Why a step word selects no row. -/
inductive DecodeError where
  | reservedFrameState      -- FS in 0b101..0b111 (R85)
  | reservedSessionState    -- SS = 0b11 (R85)
  | lenOverMax              -- a guarded RW row with LEN > MAX_BLOCK, against the invariant of R24
  | operandMismatch         -- blk or bcc is not what the kind K carries (R88, R32)
  deriving DecidableEq, Repr

/-- `RW = FS : b` (R80). -/
def rwWord (fs : BitVec 3) (b : Byte) : BitVec 11 := fs ++ b
/-- RW[10:8] (R80). -/
def rwFs (w : BitVec 11) : BitVec 3 := w.extractLsb' 8 3
/-- RW[7:0] (R80). -/
def rwByte (w : BitVec 11) : Byte := w.extractLsb' 0 8

/-- `SW = SS : K : PV` (R81). -/
def swWord (ss : BitVec 2) (k : BitVec 2) (pv : Bool) : BitVec 5 := (ss ++ k) ++ BitVec.ofBool pv
/-- SW[4:3] (R81). -/
def swSs (w : BitVec 5) : BitVec 2 := w.extractLsb' 3 2
/-- SW[2:1] (R81). -/
def swKind (w : BitVec 5) : BitVec 2 := w.extractLsb' 1 2
/-- SW[0] (R81). -/
def swPv (w : BitVec 5) : Bool := w.getLsbD 0

/-! ### The decoder -/

/-- The RW rows of R86. -/
def receiverRow (fs : BitVec 3) (b : Byte) (room : Room) (sumZero : Bool) : Except DecodeError Instr :=
  match FrameState.ofCode fs with
  | none => .error .reservedFrameState
  | some .resync => if b = STX then .ok .rxResyncStx else .ok (.rxResyncDiscard b)
  | some .idle =>
    if b = STX then .ok .rxIdleStx
    else if b = DLE then .ok .rxIdleDle
    else if b = NAK then .ok .rxIdleNak
    else .ok (.rxIdleStart b)
  | some .collecting =>
    if b = DLE then .ok .rxCollDle
    else match room with
      | .left => .ok (.rxCollAppend b)
      | .full => .ok (.rxCollOvf b)
      | .beyond => .error .lenOverMax
  | some .dleSeen =>
    if b = DLE then
      match room with
      | .left => .ok .rxDlesLit
      | .full => .ok .rxDlesOvf
      | .beyond => .error .lenOverMax
    else if b = ETX then .ok .rxDlesEtx
    else .ok (.rxDlesErr b)
  | some .verifyBcc => if sumZero then .ok (.rxBccOk b) else .ok (.rxBccBad b)

/-- One entry for each session row of R86, whatever the entries are: the instructions for the decoder, the meanings for
`Deliver`. So the SW map is written once, in `sessionRow`. -/
structure SessionRows (α : Type) where
  hssStx : α
  hssDle : α
  hssIgn : Delivery → α
  hscDle : α
  hscRej : Delivery → α
  logStxPend : α
  logStxIdle : α
  logDleSend : α
  logDleNop : α
  logData : Delivery → α

/-- The SW rows of R86: which entry SS, the delivery (whose kind is K) and PV select. -/
def sessionRow {α : Type} (rows : SessionRows α) (ss : BitVec 2) (d : Delivery) (pv : Bool) : Except DecodeError α :=
  match SessionState.ofCode ss with
  | none => .error .reservedSessionState
  | some .handshakeStart =>
    match d.kind with
    | .stx => .ok rows.hssStx
    | .dle => .ok rows.hssDle
    | .nak => .ok (rows.hssIgn d)
    | .data => .ok (rows.hssIgn d)
  | some .handshakeConfirm =>
    match d.kind with
    | .stx => .ok (rows.hscRej d)
    | .dle => .ok rows.hscDle
    | .nak => .ok (rows.hscRej d)
    | .data => .ok (rows.hscRej d)
  | some .logging =>
    match d.kind with
    | .stx => if pv then .ok rows.logStxPend else .ok rows.logStxIdle
    | .dle => if pv then .ok rows.logDleSend else .ok rows.logDleNop
    | .nak => .ok (rows.logData d)
    | .data => .ok (rows.logData d)

/-- The session rows as instructions. -/
def instrRows : SessionRows Instr :=
  { hssStx := .scHssStx, hssDle := .scHssDle, hssIgn := .scHssIgn, hscDle := .scHscDle, hscRej := .scHscRej,
    logStxPend := .scLogStxPend, logStxIdle := .scLogStxIdle, logDleSend := .scLogDleSend,
    logDleNop := .scLogDleNop, logData := .scLogData }

/-- The delivery that operands K, blk and bcc make (R88), if they fit together. -/
def deliveryOf (k : Kind) (blk : List Byte) (bcc : Option Byte) : Option Delivery :=
  match k, bcc with
  | .stx, none => if blk = [STX] then some .stx else none
  | .dle, none => if blk = [DLE] then some .dle else none
  | .nak, none => if blk = [NAK] then some .nak else none
  | .data, some c => if blk.isEmpty then none else some (.data blk c)
  | _, _ => none

/-- The TXC rows of R82 and R86. -/
def encoderRow (p : List Byte) : Instr :=
  match p with
  | [] => .txNone
  | [c] => if c ∈ CTRL then .txCtrl c else .txFrame [c]
  | a :: b :: l => .txFrame (a :: b :: l)

/-- The `REQ` rows of R83 and R86. -/
def requestRow (p : Payload) (pv : Bool) (policy : PendPolicy) : Instr :=
  if pv then
    match policy with
    | .reject => .evReqBusy p
    | .overwrite => .evReqOverwrite p
  else .evReqAccept p

/-- The decode map: total, and a word that selects no row is rejected by name (R84, R85). -/
def decode : StepWord → Except DecodeError Instr
  | .rw w room sumZero => receiverRow (rwFs w) (rwByte w) room sumZero
  | .sw w blk bcc =>
    match deliveryOf (Kind.ofCode (swKind w)) blk bcc with
    | none => .error .operandMismatch
    | some d => sessionRow instrRows (swSs w) d (swPv w)
  | .txc p => .ok (encoderRow p)
  | .rxt => .ok .evRxt
  | .req p pv policy => .ok (requestRow p pv policy)
  | .rst => .ok .evRst

/-! ### The encoder -/

/-- An RW word with its guards; a row without a guard takes the pair `.left`, `true`. -/
def encodeRw (f : FrameState) (b : Byte) (room : Room := .left) (sumZero : Bool := true) : StepWord :=
  .rw (rwWord f.code b) room sumZero

/-- An SW word with its operands; a row that matches either PV takes 0. -/
def encodeSw (ss : SessionState) (d : Delivery) (pv : Bool := false) : StepWord :=
  .sw (swWord ss.code d.kind.code pv) d.blk d.bcc

/-- A step word that selects the row, from the same table (R86). -/
def encode : Instr → StepWord
  | .rxResyncStx => encodeRw .resync STX
  | .rxResyncDiscard b => encodeRw .resync b
  | .rxIdleStx => encodeRw .idle STX
  | .rxIdleDle => encodeRw .idle DLE
  | .rxIdleNak => encodeRw .idle NAK
  | .rxIdleStart b => encodeRw .idle b
  | .rxCollDle => encodeRw .collecting DLE
  | .rxCollAppend b => encodeRw .collecting b .left
  | .rxCollOvf b => encodeRw .collecting b .full
  | .rxDlesLit => encodeRw .dleSeen DLE .left
  | .rxDlesOvf => encodeRw .dleSeen DLE .full
  | .rxDlesEtx => encodeRw .dleSeen ETX
  | .rxDlesErr b => encodeRw .dleSeen b
  | .rxBccOk b => encodeRw .verifyBcc b .left true
  | .rxBccBad b => encodeRw .verifyBcc b .left false
  | .scHssStx => encodeSw .handshakeStart .stx
  | .scHssDle => encodeSw .handshakeStart .dle
  | .scHssIgn d => encodeSw .handshakeStart d
  | .scHscDle => encodeSw .handshakeConfirm .dle
  | .scHscRej d => encodeSw .handshakeConfirm d
  | .scLogStxPend => encodeSw .logging .stx true
  | .scLogStxIdle => encodeSw .logging .stx false
  | .scLogDleSend => encodeSw .logging .dle true
  | .scLogDleNop => encodeSw .logging .dle false
  | .scLogData d => encodeSw .logging d
  | .txNone => .txc []
  | .txCtrl c => .txc [c]
  | .txFrame p => .txc p
  | .evRxt => .rxt
  | .evReqAccept p => .req p false .reject
  | .evReqBusy p => .req p true .reject
  | .evReqOverwrite p => .req p true .overwrite
  | .evRst => .rst

/-! ### The machine-readable table (R91) -/

/-- The table's mnemonic of a row. -/
def Instr.mnemonic : Instr → String
  | .rxResyncStx => "RX.RESYNC.STX"
  | .rxResyncDiscard _ => "RX.RESYNC.DISCARD"
  | .rxIdleStx => "RX.IDLE.STX"
  | .rxIdleDle => "RX.IDLE.DLE"
  | .rxIdleNak => "RX.IDLE.NAK"
  | .rxIdleStart _ => "RX.IDLE.START"
  | .rxCollDle => "RX.COLL.DLE"
  | .rxCollAppend _ => "RX.COLL.APPEND"
  | .rxCollOvf _ => "RX.COLL.OVF"
  | .rxDlesLit => "RX.DLES.LIT"
  | .rxDlesOvf => "RX.DLES.OVF"
  | .rxDlesEtx => "RX.DLES.ETX"
  | .rxDlesErr _ => "RX.DLES.ERR"
  | .rxBccOk _ => "RX.BCC.OK"
  | .rxBccBad _ => "RX.BCC.BAD"
  | .scHssStx => "SC.HSS.STX"
  | .scHssDle => "SC.HSS.DLE"
  | .scHssIgn _ => "SC.HSS.IGN"
  | .scHscDle => "SC.HSC.DLE"
  | .scHscRej _ => "SC.HSC.REJ"
  | .scLogStxPend => "SC.LOG.STX.PEND"
  | .scLogStxIdle => "SC.LOG.STX.IDLE"
  | .scLogDleSend => "SC.LOG.DLE.SEND"
  | .scLogDleNop => "SC.LOG.DLE.NOP"
  | .scLogData _ => "SC.LOG.DATA"
  | .txNone => "TX.NONE"
  | .txCtrl _ => "TX.CTRL"
  | .txFrame _ => "TX.FRAME"
  | .evRxt => "EV.RXT"
  | .evReqAccept _ => "EV.REQ.ACCEPT"
  | .evReqBusy _ => "EV.REQ.BUSY"
  | .evReqOverwrite _ => "EV.REQ.OVERWRITE"
  | .evRst => "EV.RST"

/-- The guards of the RW rows (R86, R91). -/
inductive RwGuard where
  | always | lenBelowMax | lenAtMax | sumZero | sumNonzero
  deriving DecidableEq, Repr

def RwGuard.holds (room : Room) (sumZero : Bool) : RwGuard → Bool
  | .always => true
  | .lenBelowMax => room == .left
  | .lenAtMax => room == .full
  | .sumZero => sumZero
  | .sumNonzero => !sumZero

/-- An RW row of opcode_table.json: match, mask, exclude_b and guard (R91). -/
structure RwRow where
  mnemonic : String
  value    : BitVec 11
  mask     : BitVec 11
  excludeB : List Byte := []
  guard    : RwGuard := .always
  deriving DecidableEq, Repr

/-- The row applies to `w` (R91). -/
def RwRow.selects (r : RwRow) (w : BitVec 11) (room : Room) (sumZero : Bool) : Bool :=
  (w &&& r.mask == r.value) && !r.excludeB.contains (rwByte w) && r.guard.holds room sumZero

def rwRows : List RwRow :=
  [ { mnemonic := "RX.RESYNC.STX", value := 0x002#11, mask := 0x7FF#11 },
    { mnemonic := "RX.RESYNC.DISCARD", value := 0x000#11, mask := 0x700#11, excludeB := [0x02#8] },
    { mnemonic := "RX.IDLE.STX", value := 0x102#11, mask := 0x7FF#11 },
    { mnemonic := "RX.IDLE.DLE", value := 0x110#11, mask := 0x7FF#11 },
    { mnemonic := "RX.IDLE.NAK", value := 0x115#11, mask := 0x7FF#11 },
    { mnemonic := "RX.IDLE.START", value := 0x100#11, mask := 0x700#11, excludeB := [0x02#8, 0x10#8, 0x15#8] },
    { mnemonic := "RX.COLL.DLE", value := 0x210#11, mask := 0x7FF#11 },
    { mnemonic := "RX.COLL.APPEND", value := 0x200#11, mask := 0x700#11, excludeB := [0x10#8], guard := .lenBelowMax } ]
  ++
  [ { mnemonic := "RX.COLL.OVF", value := 0x200#11, mask := 0x700#11, excludeB := [0x10#8], guard := .lenAtMax },
    { mnemonic := "RX.DLES.LIT", value := 0x310#11, mask := 0x7FF#11, guard := .lenBelowMax },
    { mnemonic := "RX.DLES.OVF", value := 0x310#11, mask := 0x7FF#11, guard := .lenAtMax },
    { mnemonic := "RX.DLES.ETX", value := 0x303#11, mask := 0x7FF#11 },
    { mnemonic := "RX.DLES.ERR", value := 0x300#11, mask := 0x700#11, excludeB := [0x10#8, 0x03#8] },
    { mnemonic := "RX.BCC.OK", value := 0x400#11, mask := 0x700#11, guard := .sumZero },
    { mnemonic := "RX.BCC.BAD", value := 0x400#11, mask := 0x700#11, guard := .sumNonzero } ]

/-- An SW row of opcode_table.json: match and mask, one row per K (R91). -/
structure SwRow where
  mnemonic : String
  value    : BitVec 5
  mask     : BitVec 5
  deriving DecidableEq, Repr

def SwRow.selects (r : SwRow) (w : BitVec 5) : Bool := w &&& r.mask == r.value

def swRows : List SwRow :=
  [ { mnemonic := "SC.HSS.STX", value := 0x00#5, mask := 0x1E#5 },
    { mnemonic := "SC.HSS.DLE", value := 0x02#5, mask := 0x1E#5 },
    { mnemonic := "SC.HSS.IGN", value := 0x04#5, mask := 0x1E#5 },
    { mnemonic := "SC.HSS.IGN", value := 0x06#5, mask := 0x1E#5 },
    { mnemonic := "SC.HSC.DLE", value := 0x0A#5, mask := 0x1E#5 },
    { mnemonic := "SC.HSC.REJ", value := 0x08#5, mask := 0x1E#5 },
    { mnemonic := "SC.HSC.REJ", value := 0x0C#5, mask := 0x1E#5 },
    { mnemonic := "SC.HSC.REJ", value := 0x0E#5, mask := 0x1E#5 },
    { mnemonic := "SC.LOG.STX.PEND", value := 0x11#5, mask := 0x1F#5 },
    { mnemonic := "SC.LOG.STX.IDLE", value := 0x10#5, mask := 0x1F#5 },
    { mnemonic := "SC.LOG.DLE.SEND", value := 0x13#5, mask := 0x1F#5 },
    { mnemonic := "SC.LOG.DLE.NOP", value := 0x12#5, mask := 0x1F#5 },
    { mnemonic := "SC.LOG.DATA", value := 0x14#5, mask := 0x1E#5 },
    { mnemonic := "SC.LOG.DATA", value := 0x16#5, mask := 0x1E#5 } ]

/-! ### A bare table word (log entry 13)

opcode_table.json gives an RW or SW word alone. The guards and operands it leaves outside are those of a receiver that holds
the one-byte block `[0x00]`, whose frame on the wire is `00 10 03 13`. -/

/-- The delivery of a kind when only the kind is given. -/
def tableDelivery : Kind → Delivery
  | .stx => .stx
  | .dle => .dle
  | .nak => .nak
  | .data => .data [0x00#8] 0x13#8

/-- ACC of a receiver that holds `[0x00]` in each FrameState (R137). -/
def tableAcc (fs : BitVec 3) : Byte :=
  match FrameState.ofCode fs with
  | some .dleSeen => 0x10#8
  | some .verifyBcc => 0x13#8
  | _ => 0x00#8

/-- The step word that a bare table word stands for: an SW word has at most 8 bits of table, an RW word more. The TXC and HE
rows have no bits, so no word. -/
def tableStepWord (nbits w : Nat) : Option StepWord :=
  if nbits = 0 then none
  else if nbits ≤ 8 then
    if w < 32 then
      let v := BitVec.ofNat 5 w
      let d := tableDelivery (Kind.ofCode (swKind v))
      some (.sw v d.blk d.bcc)
    else none
  else if w < 2048 then
    let v := BitVec.ofNat 11 w
    some (.rw v .left (tableAcc (rwFs v) ^^^ rwByte v == 0x00#8))
  else none

/-- The instruction that the decoder reads from the bits `w` of a table row of `nbits` bits. -/
def decodeTableWord (nbits w : Nat) : Option Instr :=
  match tableStepWord nbits w with
  | none => none
  | some sw =>
    match decode sw with
    | .ok i => some i
    | .error _ => none

end Sys2Proof
end

