-- ==== Sys2Proof/Machine/State.lean ====
section
/-! DEFINITION. The state of the block (10_state.md R20) with its output trace (R32), its configuration (R33) and the events
still to come (00_scope.md R6), the reasons to stop, and the state after power-on (R35, R231). -/

namespace Sys2Proof.Machine

/-- The conditions that `Diag` reports (60_exceptions.md R201). -/
inductive DiagCode where
  | checksumMismatch          -- code 1
  | oversizedBlock            -- code 2
  | unexpectedAfterEscape     -- code 3
  | handshakeRejection        -- code 4
  | slotBusy                  -- code 5
  | unexpectedDle             -- code 6
  deriving DecidableEq, Repr

/-- The answer to a `REQ` (R32). -/
inductive ReqAnswer where
  | accepted | busy
  deriving DecidableEq, Repr

/-- One output event (R32). -/
inductive OutEvent where
  | txByte (b : Byte)
  | dec (blk : List Byte) (bcc : Option Byte)
  | diag (c : DiagCode)
  | reqAck (r : ReqAnswer)
  deriving DecidableEq, Repr

/-- A byte array of fixed size, element 0 first (20_memory.md R50, 10_state.md R28): every element holds a byte, so equal
contents are equal lists (log entry 16). -/
abbrev Memory := List Byte

/-- The array has its `n` elements, the indices 0 to n-1, and no other. -/
abbrev Memory.wf (m : Memory) (n : Nat) : Prop := m.length = n

/-- Why the machine stops. Only states that break an invariant of the block stop it; every one of these is safe, since the
spec gives such a state no effect. -/
inductive Fault where
  /-- `step`: FS holds a reserved code (R34, R85). Safe: the spec asks for this fault. -/
  | reservedFrameState
  /-- `step` and `Deliver`: SS holds the reserved code (R34, R85). Safe: the spec asks for this fault. -/
  | reservedSessionState
  /-- `step`: LEN > MAX_BLOCK where a row's guard reads it; no RW row matches (R24, R84). Safe. -/
  | lenOverMax
  /-- `step`: a step word whose operands do not fit its kind. No event makes one; kept because the decoder can say it. Safe. -/
  | operandMismatch
  /-- The writing receiver rows and RX.BCC.OK: BUF has no element at this index (R50). Safe. -/
  | bufIndex (i : Nat)
  deriving DecidableEq, Repr

/-- What has no meaning in the model. -/
inductive Refusal where
  /-- `exec`: an instruction whose meaning is not written. No arm is left that answers it. Safe. -/
  | notModelled (mnemonic : String)
  deriving DecidableEq, Repr

/-- The state vector of R20, then what the model holds beside it. -/
structure State where
  fs    : BitVec 3          -- FS, a FrameState code (R21)
  buf   : Memory            -- BUF[0..MAX_BLOCK-1] (R23)
  len   : Nat               -- LEN (R24)
  acc   : Byte              -- ACC (R25)
  ss    : BitVec 2          -- SS, a SessionState code (R22)
  pv    : Bool              -- PV (R26)
  pbuf  : Payload           -- PBUF (R27)
  out   : List OutEvent     -- OUT, oldest first (R32): the observation, read by no rule
  cfg   : Config            -- the parameters (R33), written by no event
  input : List Event        -- the events still to come, oldest first (R6, R60)
  draws : Nat               -- how many free bytes have been drawn (log entry 9)
  deriving DecidableEq, Repr

/-- The answer of a meaning or a step. -/
abbrev Result := Host.Outcome State Fault Refusal

/-- Power-on (R35, R231) under a configuration; the bytes 00 of BUF and PBUF are the model's choice (log entries 7 and 8). -/
def State.powerOn (c : Config) : State :=
  { fs := c.rxResetState.frameState.code, buf := List.replicate c.maxBlock 0x00#8, len := 0, acc := 0x00#8,
    ss := SessionState.handshakeStart.code, pv := false,
    pbuf := #v[0x00#8, 0x00#8, 0x00#8, 0x00#8, 0x00#8, 0x00#8, 0x00#8, 0x00#8],
    out := [], cfg := c, input := [], draws := 0 }

/-- The machine right after reset, with the default parameters (R7). -/
def State.reset : State := State.powerOn Config.default

end Sys2Proof.Machine
end

