-- ==== Sys2Proof/Machine/Ops.lean ====
section
/-! DEFINITION. The named operations of the rules' pseudocode (00_scope.md R11) over memory, state and output. The block takes
no exception and returns from none (60_exceptions.md R200, R211): an error condition is a state change and a `Diag` event, and
`diag` is the one operation for it. -/

namespace Sys2Proof.Machine

/-- `r`, and from its next state `f`: statements run in the order written (R11). -/
def andThen (r : Result) (f : State → Result) : Result :=
  match r with
  | .next s => f s
  | .fault e => .fault e
  | .refused e => .refused e

/-- The fault that a step word with no row gives (R34, R85). -/
def faultOf : DecodeError → Fault
  | .reservedFrameState => .reservedFrameState
  | .reservedSessionState => .reservedSessionState
  | .lenOverMax => .lenOverMax
  | .operandMismatch => .operandMismatch

/-! ### Byte arrays -/

/-- The byte at index `i`; none where the array has no such element. -/
def Memory.read (m : Memory) (i : Nat) : Option Byte := m[i]?

/-- Write one byte; the array keeps its size. -/
def Memory.write (m : Memory) (i : Nat) (b : Byte) : Memory := m.set i b

/-- Elements 0 to n-1 as a list (R10, R56b); none where the array has fewer. -/
def Memory.firstBytes (m : Memory) (n : Nat) : Option (List Byte) := if n ≤ m.length then some (m.take n) else none

/-- `MemWrite(BUF, i, 1, v)` (R11): BUF has the indices 0..MAX_BLOCK-1 and no other (R50; log entry 12). -/
def bufWrite (i : Nat) (b : Byte) (s : State) : Result :=
  if i < s.buf.length then .next { s with buf := Memory.write s.buf i b }
  else .fault (.bufIndex i)

/-! ### Output (R32) -/

/-- Append events to OUT; OUT is never shortened. -/
def emit (l : List OutEvent) (s : State) : State := { s with out := s.out ++ l }

/-- `Tx(l)`: one `TxByte` for each byte, in order (R11, R104). -/
def tx (l : List Byte) (s : State) : State := emit (l.map .txByte) s

/-- `DecodeOut(blk, bcc)` (R11, R162). -/
def decodeOut (blk : List Byte) (bcc : Option Byte) (s : State) : State := emit [.dec blk bcc] s

/-- `AckOut(r)` (R11). -/
def ackOut (r : ReqAnswer) (s : State) : State := emit [.reqAck r] s

/-- What `Diag(c)` emits: the diagnostic when DIAG_EN is true, and nothing otherwise (R202). -/
def diagEvents (c : DiagCode) (cfg : Config) : List OutEvent := if cfg.diagEn then [.diag c] else []

/-- `Diag(c)` (R11, R202). -/
def diag (c : DiagCode) (s : State) : State := emit (diagEvents c s.cfg) s

/-- The codes of R201. -/
def diagNumber : DiagCode → Nat
  | .checksumMismatch => 1
  | .oversizedBlock => 2
  | .unexpectedAfterEscape => 3
  | .handshakeRejection => 4
  | .slotBusy => 5
  | .unexpectedDle => 6

/-! ### State writes -/

/-- `S.FS <- f` with the code of R21. -/
def setFs (f : FrameState) (s : State) : State := { s with fs := f.code }

/-- `S.SS <- x` with the code of R22. -/
def setSs (x : SessionState) (s : State) : State := { s with ss := x.code }

/-- Give the partial block up and resynchronise, reporting `c` (R129, R131, R133). -/
def abandonBlock (c : DiagCode) (s : State) : State := diag c (setFs .resync { s with len := 0 })

/-- Store the byte at `BUF[LEN]`, count it, and fold `b` into ACC (R128, R130). -/
def appendByte (b : Byte) (s : State) : Result :=
  andThen (bufWrite s.len b s) fun t => .next { t with len := t.len + 1, acc := t.acc ^^^ b }

/-- All eight bytes of PBUF and PV in one step (R56c, R181, R183). -/
def loadPending (p : Payload) (s : State) : State := { s with pbuf := p, pv := true }

/-- `n` free bytes, from draw number `k` on (log entry 9). -/
def freeBytes : Nat → Nat → List Byte
  | 0, _ => []
  | n + 1, k => Config.freeByte k :: freeBytes n (k + 1)

/-- Eight free bytes, from draw number `k` on (log entry 9). -/
def freePayload (k : Nat) : Payload := Vector.ofFn fun i : Fin 8 => Config.freeByte (k + i.val)

/-- The reset values of R35, written by `RST` (R230). BUF and PBUF are unspecified, any value (U3, U4): they are left with
free bytes. OUT, the parameters and the events still to come are no state of the block and stay. -/
def applyReset (s : State) : State :=
  { s with fs := s.cfg.rxResetState.frameState.code, len := 0, acc := 0x00#8, ss := SessionState.handshakeStart.code,
           pv := false, buf := freeBytes s.cfg.maxBlock s.draws, pbuf := freePayload (s.draws + s.cfg.maxBlock),
           draws := s.draws + s.cfg.maxBlock + 8 }

end Sys2Proof.Machine
end

