-- ==== Sys2Proof/Machine/Flags.lean ====
section
/-! DEFINITION. The conditions that rows read (10_state.md R30): the two predicates that are not stored. The one stored flag,
PV, is the field `pv`. -/

namespace Sys2Proof.Machine

/-- LEN against MAX_BLOCK: `LEN < MAX_BLOCK` is the room-left predicate (R30). -/
def room (s : State) : Room :=
  if s.len < s.cfg.maxBlock then .left
  else if s.len = s.cfg.maxBlock then .full
  else .beyond

/-- `ACC ^ b = 0x00`, the checksum-valid predicate (R30). -/
def sumZero (s : State) (b : Byte) : Bool := s.acc ^^^ b == 0x00#8

/-- Neither FS nor SS holds a reserved code (R34): the fault that a reserved code is, if there is one. -/
def reservedCode (s : State) : Option Fault :=
  if (FrameState.ofCode s.fs).isNone then some .reservedFrameState
  else if (SessionState.ofCode s.ss).isNone then some .reservedSessionState
  else none

end Sys2Proof.Machine
end

