-- ==== Sys2Proof/Machine/Operands.lean ====
section
/-! DEFINITION. How operands and step words are assembled from the state and an event (30_encoding.md R80 to R83, R87, R88). -/

namespace Sys2Proof.Machine

/-- The receiver step word for `RXB(b)` with its guards (R80). -/
def receiverWord (s : State) (b : Byte) : StepWord := .rw (rwWord s.fs b) (room s) (sumZero s b)

/-- The session step word for a delivery with its operands (R81, R88). -/
def sessionWord (s : State) (d : Delivery) : StepWord := .sw (swWord s.ss d.kind.code s.pv) d.blk d.bcc

/-- The step word of an input event (R80, R83). -/
def stepWord (s : State) : Event → StepWord
  | .rxb b => receiverWord s b
  | .rxt => .rxt
  | .req p => .req p s.pv s.cfg.pendPolicy
  | .rst => .rst

/-- `S.BUF[0 .. S.LEN)`, read as a whole (R56b, R134): none where BUF has fewer elements (log entry 12). -/
def heldBlock (s : State) : Option (List Byte) := Memory.firstBytes s.buf s.len

/-- `S.PBUF[0 .. 8)`, read as a whole (R56d, R158). -/
def pendingBytes (s : State) : List Byte := s.pbuf.toList

/-- The register address that a model of the out-of-scope decoder forms from a delivered block, first byte most significant
(20_memory.md R53). No rule of the block calls it. -/
def registerAddress : List Byte → Option (BitVec 16)
  | a :: b :: _ => some (a ++ b)
  | _ => none

end Sys2Proof.Machine
end

