-- ==== Sys2Proof/Machine/Codec.lean ====
section
/-! DEFINITION. The Framing Codec's encoder (40_codec.md): the pure function `Encode` and the meanings of the TXC rows. -/

namespace Sys2Proof.Machine

/-- `Stuff(p)`: every payload byte equal to DLE comes twice, every other byte once (R73, R75). -/
def stuff : List Byte → List Byte
  | [] => []
  | b :: p => if b = DLE then DLE :: DLE :: stuff p else b :: stuff p

/-- The checksum of a frame: every transmitted byte before it, stuffed copies and terminator included (R74). -/
def frameBcc (p : List Byte) : Byte := xorAll (stuff p ++ [DLE, ETX])

/-- Wire format W2: the stuffed payload, DLE, ETX and the unstuffed BCC (R73, R103, R107). -/
def frame (p : List Byte) : List Byte := stuff p ++ [DLE, ETX, frameBcc p]

/-- `Encode(p)` (R100): nothing, one raw control byte, or a frame. -/
def encodeBlock (p : List Byte) : List Byte :=
  match p with
  | [] => []
  | [c] => if c ∈ CTRL then [c] else frame [c]
  | a :: b :: l => frame (a :: b :: l)

/-- The running values `out` and `bcc` of R103's loop. -/
structure FrameLoop where
  out : List Byte
  bcc : Byte
  deriving DecidableEq, Repr

/-- `out <- out ++ [b] ; bcc <- bcc ^ b`. -/
def loopPush (b : Byte) (l : FrameLoop) : FrameLoop := { out := l.out ++ [b], bcc := l.bcc ^^^ b }

/-- One pass of R103's loop. -/
def loopBody (l : FrameLoop) (b : Byte) : FrameLoop := if b = DLE then loopPush DLE (loopPush b l) else loopPush b l

/-- R103's pseudocode as it stands: the loop, the terminator, the BCC. The machine uses `frame`. -/
def frameByLoop (p : List Byte) : List Byte :=
  let l := loopPush ETX (loopPush DLE (p.foldl loopBody { out := [], bcc := 0x00#8 }))
  l.out ++ [l.bcc]

/-- `Tx(Encode(p))`: every transmission of the block is one of these (R100, R104). -/
def transmit (p : List Byte) (s : State) : State := tx (encodeBlock p) s

/-- TX.NONE (R101): nothing is transmitted. -/
def execTxNone (s : State) : Result := .next (tx [] s)

/-- TX.CTRL (R102): the control byte alone, with no framing, stuffing or checksum. -/
def execTxCtrl (c : Byte) (s : State) : Result := .next (tx [c] s)

/-- TX.FRAME (R103): a framed data block. -/
def execTxFrame (p : List Byte) (s : State) : Result := .next (tx (frame p) s)

end Sys2Proof.Machine
end

