-- ==== Sys2Proof/Machine/Session.lean ====
section
/-! DEFINITION. The Session Controller (42_session.md): a meaning for each session row, and `Deliver`, which runs the row that
SS, the delivery's kind and PV select. -/

namespace Sys2Proof.Machine

/-- SC.HSS.STX (R151): answer STX with STX. -/
def execScHssStx (s : State) : Result := .next (transmit [STX] s)

/-- SC.HSS.DLE (R152): request logging mode. -/
def execScHssDle (s : State) : Result := .next (setSs .handshakeConfirm (transmit s.cfg.logCmd s))

/-- SC.HSS.IGN (R153): nothing. -/
def execScHssIgn (_d : Delivery) (s : State) : Result := .next s

/-- SC.HSC.DLE (R154): logging mode confirmed, no output. -/
def execScHscDle (s : State) : Result := .next (setSs .logging s)

/-- SC.HSC.REJ (R155): the handshake is rejected; the delivery gets no reply and is not run again (D10). -/
def execScHscRej (_d : Delivery) (s : State) : Result := .next (diag .handshakeRejection (setSs .handshakeStart s))

/-- SC.LOG.STX.PEND (R156): a poll with a command pending asks for a send slot. -/
def execScLogStxPend (s : State) : Result := .next (transmit [STX] s)

/-- SC.LOG.STX.IDLE (R157): a poll with nothing pending is acknowledged. -/
def execScLogStxIdle (s : State) : Result := .next (transmit [DLE] s)

/-- SC.LOG.DLE.SEND (R158): send the pending payload, clear PV, restart the handshake. -/
def execScLogDleSend (s : State) : Result :=
  .next (setSs .handshakeStart { transmit (pendingBytes s) s with pv := false })

/-- SC.LOG.DLE.NOP (R159, D9): nothing but the diagnostic. -/
def execScLogDleNop (s : State) : Result := .next (diag .unexpectedDle s)

/-- SC.LOG.DATA (R160): hand the delivery to the decoder, then acknowledge it; a NAK is data here too (C6). -/
def execScLogData (d : Delivery) (s : State) : Result := .next (transmit [DLE] (decodeOut d.blk d.bcc s))

/-- The session rows' meanings, in the map of R86. -/
def meaningRows : SessionRows (State → Result) :=
  { hssStx := execScHssStx, hssDle := execScHssDle, hssIgn := execScHssIgn, hscDle := execScHscDle,
    hscRej := execScHscRej, logStxPend := execScLogStxPend, logStxIdle := execScLogStxIdle,
    logDleSend := execScLogDleSend, logDleNop := execScLogDleNop, logData := execScLogData }

/-- `Deliver(K, blk, bcc)` (41_receiver.md R136, R150): exactly one session row, at once and within the step. -/
def deliver (d : Delivery) (s : State) : Result :=
  match sessionRow meaningRows s.ss d s.pv with
  | .ok row => row s
  | .error e => .fault (faultOf e)

end Sys2Proof.Machine
end

