-- ==== Sys2Proof/Machine/Receiver.lean ====
section
/-! DEFINITION. The Frame Receiver (41_receiver.md): a meaning for each receiver row. Where a row delivers, the session row
runs after all the receiver's own writes (R136). -/

namespace Sys2Proof.Machine

/-- RX.RESYNC.STX (R121): the start byte ends RESYNC and is delivered. -/
def execRxResyncStx (s : State) : Result := deliver .stx (setFs .idle s)

/-- RX.RESYNC.DISCARD (R122): nothing. -/
def execRxResyncDiscard (_b : Byte) (s : State) : Result := .next s

/-- RX.IDLE.STX (R123). -/
def execRxIdleStx (s : State) : Result := deliver .stx s

/-- RX.IDLE.DLE (R124). -/
def execRxIdleDle (s : State) : Result := deliver .dle s

/-- RX.IDLE.NAK (R125). -/
def execRxIdleNak (s : State) : Result := deliver .nak s

/-- RX.IDLE.START (R126): the first byte of a block. -/
def execRxIdleStart (b : Byte) (s : State) : Result :=
  andThen (bufWrite 0 b s) fun t => .next (setFs .collecting { t with len := 1, acc := b })

/-- RX.COLL.DLE (R127): folded into ACC, not stored. -/
def execRxCollDle (s : State) : Result := .next (setFs .dleSeen { s with acc := s.acc ^^^ DLE })

/-- RX.COLL.APPEND (R128). -/
def execRxCollAppend (b : Byte) (s : State) : Result := appendByte b s

/-- RX.COLL.OVF (R129): the byte is consumed with the block (D8). -/
def execRxCollOvf (_b : Byte) (s : State) : Result := .next (abandonBlock .oversizedBlock s)

/-- RX.DLES.LIT (R130): one DLE is stored for the pair. -/
def execRxDlesLit (s : State) : Result := andThen (appendByte DLE s) fun t => .next (setFs .collecting t)

/-- RX.DLES.OVF (R131, D7). -/
def execRxDlesOvf (s : State) : Result := .next (abandonBlock .oversizedBlock s)

/-- RX.DLES.ETX (R132): the terminator. -/
def execRxDlesEtx (s : State) : Result := .next (setFs .verifyBcc { s with acc := s.acc ^^^ ETX })

/-- RX.DLES.ERR (R133): a protocol violation; the byte is consumed with the block (D8). -/
def execRxDlesErr (_b : Byte) (s : State) : Result := .next (abandonBlock .unexpectedAfterEscape s)

/-- RX.BCC.OK (R134): the verified block is delivered with its checksum byte beside it (D6). -/
def execRxBccOk (b : Byte) (s : State) : Result :=
  match heldBlock s with
  | none => .fault (.bufIndex s.buf.length)
  | some blk => deliver (.data blk b) (setFs .idle { s with acc := s.acc ^^^ b, len := 0 })

/-- RX.BCC.BAD (R135): nothing is delivered, and a NAK is sent in every SS. -/
def execRxBccBad (b : Byte) (s : State) : Result :=
  .next (transmit [NAK] (diag .checksumMismatch (setFs .idle { s with acc := s.acc ^^^ b, len := 0 })))

end Sys2Proof.Machine
end

