-- ==== Sys2Proof/Machine/HostEvents.lean ====
section
/-! DEFINITION. The channel timeout, the pending-command load (43_host.md) and reset (70_reset_and_hazards.md). -/

namespace Sys2Proof.Machine

/-- EV.RXT (R180): nothing, mid-block included (R138). -/
def execEvRxt (s : State) : Result := .next s

/-- EV.REQ.ACCEPT (R181). -/
def execEvReqAccept (p : Payload) (s : State) : Result := .next (ackOut .accepted (loadPending p s))

/-- EV.REQ.BUSY (R182): the earlier command is kept. -/
def execEvReqBusy (_p : Payload) (s : State) : Result := .next (diag .slotBusy (ackOut .busy s))

/-- EV.REQ.OVERWRITE (R183): the earlier command is lost without notice. -/
def execEvReqOverwrite (p : Payload) (s : State) : Result := .next (ackOut .accepted (loadPending p s))

/-- EV.RST (R230). -/
def execEvRst (s : State) : Result := .next (applyReset s)

end Sys2Proof.Machine
end

