-- ==== Sys2Proof/Machine/Dispatch.lean ====
section
/-! DEFINITION. Which meaning runs for each instruction: one arm per constructor of `Instr`. -/

namespace Sys2Proof.Machine

def exec (i : Instr) (s : State) : Host.Outcome State Fault Refusal :=
  match i with
  | .rxResyncStx => Sys2Proof.Machine.execRxResyncStx s
  | .rxResyncDiscard b => Sys2Proof.Machine.execRxResyncDiscard b s
  | .rxIdleStx => Sys2Proof.Machine.execRxIdleStx s
  | .rxIdleDle => Sys2Proof.Machine.execRxIdleDle s
  | .rxIdleNak => Sys2Proof.Machine.execRxIdleNak s
  | .rxIdleStart b => Sys2Proof.Machine.execRxIdleStart b s
  | .rxCollDle => Sys2Proof.Machine.execRxCollDle s
  | .rxCollAppend b => Sys2Proof.Machine.execRxCollAppend b s
  | .rxCollOvf b => Sys2Proof.Machine.execRxCollOvf b s
  | .rxDlesLit => Sys2Proof.Machine.execRxDlesLit s
  | .rxDlesOvf => Sys2Proof.Machine.execRxDlesOvf s
  | .rxDlesEtx => Sys2Proof.Machine.execRxDlesEtx s
  | .rxDlesErr b => Sys2Proof.Machine.execRxDlesErr b s
  | .rxBccOk b => Sys2Proof.Machine.execRxBccOk b s
  | .rxBccBad b => Sys2Proof.Machine.execRxBccBad b s
  | .scHssStx => Sys2Proof.Machine.execScHssStx s
  | .scHssDle => Sys2Proof.Machine.execScHssDle s
  | .scHssIgn d => Sys2Proof.Machine.execScHssIgn d s
  | .scHscDle => Sys2Proof.Machine.execScHscDle s
  | .scHscRej d => Sys2Proof.Machine.execScHscRej d s
  | .scLogStxPend => Sys2Proof.Machine.execScLogStxPend s
  | .scLogStxIdle => Sys2Proof.Machine.execScLogStxIdle s
  | .scLogDleSend => Sys2Proof.Machine.execScLogDleSend s
  | .scLogDleNop => Sys2Proof.Machine.execScLogDleNop s
  | .scLogData d => Sys2Proof.Machine.execScLogData d s
  | .txNone => Sys2Proof.Machine.execTxNone s
  | .txCtrl c => Sys2Proof.Machine.execTxCtrl c s
  | .txFrame p => Sys2Proof.Machine.execTxFrame p s
  | .evRxt => Sys2Proof.Machine.execEvRxt s
  | .evReqAccept p => Sys2Proof.Machine.execEvReqAccept p s
  | .evReqBusy p => Sys2Proof.Machine.execEvReqBusy p s
  | .evReqOverwrite p => Sys2Proof.Machine.execEvReqOverwrite p s
  | .evRst => Sys2Proof.Machine.execEvRst s

end Sys2Proof.Machine
end

