-- ==== Sys2Proof/Machine/Fetch.lean ====
section
/-! DEFINITION. Taking the next event (00_scope.md R6), the row it selects, and placing a bare table word as the next event
(log entry 13). -/

namespace Sys2Proof.Machine

/-- The next event and the state with it consumed (R57): none where no event is waiting. -/
def takeEvent (s : State) : Option (Event × State) :=
  match s.input with
  | [] => none
  | e :: rest => some (e, { s with input := rest })

/-- The row that the event selects in the state (R120, R83). -/
def rowOf (s : State) (e : Event) : Except DecodeError Instr := decode (stepWord s e)

/-- The receiver as it stands in a FrameState while it holds the one-byte block `[0x00]`, or no block (R24, R137). -/
def parkReceiver (fs : BitVec 3) (s : State) : State :=
  if fs = FrameState.resync.code ∨ fs = FrameState.idle.code then { s with fs := fs, len := 0 }
  else { s with fs := fs, len := 1, buf := Memory.write s.buf 0 0x00#8, acc := tableAcc fs }

/-- The received byte that makes the receiver deliver a kind, from IDLE or, for DATA, from VERIFY_BCC. -/
def deliveringByte : Kind → Byte
  | .stx => STX
  | .dle => DLE
  | .nak => NAK
  | .data => 0x13#8

/-- Place an RW word: FS from the word, the byte as the next event. -/
def placeReceiverWord (w : BitVec 11) (s : State) : State :=
  let t := parkReceiver (rwFs w) s
  { t with input := .rxb (rwByte w) :: t.input }

/-- Place an SW word: SS and PV from the word, the receiver about to make a delivery of kind K. -/
def placeSessionWord (w : BitVec 5) (s : State) : State :=
  let k := Kind.ofCode (swKind w)
  let t := parkReceiver (if k = .data then FrameState.verifyBcc.code else FrameState.idle.code) s
  { t with ss := swSs w, pv := swPv w, input := .rxb (deliveringByte k) :: t.input }

/-- Place a table word of `nbits` bits; `tableStepWord` reads the same words. -/
def placeTableWord (nbits w : Nat) (s : State) : State :=
  if nbits = 0 then s
  else if nbits ≤ 8 then placeSessionWord (BitVec.ofNat 5 w) s
  else placeReceiverWord (BitVec.ofNat 11 w) s

/-! ### Stimulus lines (30_encoding.md R89, R90; 43_host.md R187) -/

/-- A line of a stimulus: an event (R89) or a pseudo-event (R90). -/
inductive Stimulus where
  | event (e : Event)
  | rxf (p : List Byte)       -- the peer sends a correctly framed block
  | rxfBad (p : List Byte)    -- the same with the last byte ^ 0x01
  | rxc (k : Kind)            -- STX, DLE or NAK
  deriving DecidableEq, Repr

/-- Replace the last byte by itself ^ 0x01 (R90). R90 calls that byte the BCC. DESIGN CHOICE (log entry 20): for a payload of
one control byte, whose encoding has no BCC, the control byte itself is changed, and nothing is sent for no payload. -/
def spoilLast : List Byte → List Byte
  | [] => []
  | [b] => [b ^^^ 0x01#8]
  | a :: b :: l => a :: spoilLast (b :: l)

/-- The events a line stands for; there is no `RXC` of a DATA block. -/
def expandStimulus : Stimulus → List Event
  | .event e => [e]
  | .rxf p => (encodeBlock p).map .rxb
  | .rxfBad p => (spoilLast (encodeBlock p)).map .rxb
  | .rxc .stx => [.rxb STX]
  | .rxc .dle => [.rxb DLE]
  | .rxc .nak => [.rxb NAK]
  | .rxc .data => []

/-- A channel read that answers a byte or none (R187). -/
def eventOfRead : Option Byte → Event
  | some b => .rxb b
  | none => .rxt

end Sys2Proof.Machine
end

