-- ==== Sys2Proof/Machine/Step.lean ====
section
/-! DEFINITION. One step of the block (00_scope.md R6). -/

namespace Sys2Proof.Machine

/-- One step consumes one input event and runs the row it selects. A reserved code in the state is a fault, whatever the event
(R34). With no event waiting the block does nothing (60_exceptions.md R216; log entry 2). -/
def step (s : State) : Host.Outcome State Fault Refusal :=
  match reservedCode s with
  | some f => .fault f
  | none =>
    match takeEvent s with
    | none => .next s
    | some (e, t) =>
      match rowOf t e with
      | .error err => .fault (faultOf err)
      | .ok i => exec i t

/-- `s` with a bare table word placed as the next event (log entry 13). -/
def State.withFetchWord (s : State) (nbits w : Nat) : State := placeTableWord nbits w s

end Sys2Proof.Machine
end

