-- ==== Sys2Proof/Safety.lean ====
section
/-! DEFINITION. What counts as a safe run, and the terms claims use: the invariants of the block (10_state.md R23 to R25, R34,
41_receiver.md R137), when two states differ in dead state only (10_state.md R36), and runs over several events. -/

namespace Sys2Proof.Machine

/-- The next state of an answer, if it has one. -/
def nextState : Result → Option State
  | .next s => some s
  | .fault _ => none
  | .refused _ => none

/-- The fault of an answer, if it is one. -/
def faultState : Result → Option Fault
  | .next _ => none
  | .fault f => some f
  | .refused _ => none

/-- A step is safe when it answers a next state. -/
def Safe (s : State) : Prop := ∃ t, step s = .next t

/-- FS and SS hold codes of a state (R34). -/
def LegalCodes (s : State) : Prop :=
  (FrameState.ofCode s.fs).isSome = true ∧ (SessionState.ofCode s.ss).isSome = true

/-- While a block is being received: BUF[0..LEN) holds a block of 1 to MAX_BLOCK bytes that does not begin with a control
byte (R24, R79), and ACC is the exclusive-or of the bytes received since it began, `Stuff(block) ++ tail` (R25, R137). -/
def HoldsBlock (s : State) (tail : List Byte) : Prop :=
  ∃ b blk, heldBlock s = some (b :: blk) ∧ b ∉ CTRL ∧ s.len ≤ s.cfg.maxBlock ∧
    s.acc = xorAll (stuff (b :: blk) ++ tail)

/-- What each FrameState says of LEN, BUF and ACC; a reserved code says that the state is illegal (R24, R25, R34). -/
def ReceiverInv (s : State) : Prop :=
  match FrameState.ofCode s.fs with
  | none => False
  | some .resync => s.len = 0
  | some .idle => s.len = 0
  | some .collecting => HoldsBlock s []
  | some .dleSeen => HoldsBlock s [DLE]
  | some .verifyBcc => HoldsBlock s [DLE, ETX]

/-- The invariant of the block. -/
structure Inv (s : State) : Prop where
  maxBlock  : 1 ≤ s.cfg.maxBlock                                     -- R7
  bufWf     : Memory.wf s.buf s.cfg.maxBlock                         -- R50
  session   : (SessionState.ofCode s.ss).isSome = true               -- R34
  receiver  : ReceiverInv s

/-- FS is a state in which ACC is read (R36). -/
def AccIsLive (s : State) : Prop :=
  FrameState.ofCode s.fs = some .collecting ∨ FrameState.ofCode s.fs = some .dleSeen ∨
    FrameState.ofCode s.fs = some .verifyBcc

/-- The two states agree on everything but dead state: ACC in RESYNC and IDLE, BUF from LEN on, PBUF while PV = 0 (R36, U3 to
U5). -/
structure SameLive (s t : State) : Prop where
  fs    : s.fs = t.fs
  len   : s.len = t.len
  ss    : s.ss = t.ss
  pv    : s.pv = t.pv
  out   : s.out = t.out
  cfg   : s.cfg = t.cfg
  input : s.input = t.input
  draws : s.draws = t.draws
  acc   : AccIsLive s → s.acc = t.acc
  size  : s.buf.length = t.buf.length
  buf   : ∀ i, i < s.len → Memory.read s.buf i = Memory.read t.buf i
  pbuf  : s.pv = true → s.pbuf = t.pbuf

/-- Two answers that agree but for dead state. -/
def SameLiveResult : Result → Result → Prop
  | .next s, .next t => SameLive s t
  | .fault f, .fault g => f = g
  | .refused f, .refused g => f = g
  | _, _ => False

/-- `s` with these bytes as the next events. -/
def withBytes (l : List Byte) (s : State) : State := { s with input := l.map .rxb ++ s.input }

/-- The answer after `n` steps. -/
def runSteps : Nat → State → Result
  | 0, s => .next s
  | n + 1, s => andThen (step s) (runSteps n)

/-- The bytes of the `TxByte` events in a piece of OUT. -/
def txBytes : List OutEvent → List Byte
  | [] => []
  | .txByte b :: l => b :: txBytes l
  | .dec _ _ :: l => txBytes l
  | .diag _ :: l => txBytes l
  | .reqAck _ :: l => txBytes l

/-- The codes of the `Diag` events in a piece of OUT. -/
def diags : List OutEvent → List DiagCode
  | [] => []
  | .txByte _ :: l => diags l
  | .dec _ _ :: l => diags l
  | .diag c :: l => c :: diags l
  | .reqAck _ :: l => diags l

/-- The answers of the `ReqAck` events in a piece of OUT. -/
def reqAcks : List OutEvent → List ReqAnswer
  | [] => []
  | .txByte _ :: l => reqAcks l
  | .dec _ _ :: l => reqAcks l
  | .diag _ :: l => reqAcks l
  | .reqAck r :: l => r :: reqAcks l

/-- A piece of OUT without its `Diag` events. -/
def withoutDiags : List OutEvent → List OutEvent
  | [] => []
  | .txByte b :: l => .txByte b :: withoutDiags l
  | .dec blk bcc :: l => .dec blk bcc :: withoutDiags l
  | .diag _ :: l => withoutDiags l
  | .reqAck r :: l => .reqAck r :: withoutDiags l

end Sys2Proof.Machine
end

