-- ==== Sys2Proof/Certificates/Slice0/Obligations.lean ====
section
/-! DEFINITION. The statements about the block, from the spec's numbered rules. A docstring names the rule; where a statement
rests on a decision that the spec marks as its own (D<n>, C<n>) or on the model's choice (a log entry), it says so. State and
kind codes and the layouts of step words are everywhere those of D3 and D21. A statement about every step passes through the
rows that D7 to D10 and C6 settle (93_implementation_defined.md U10 to U13, U17; log entry 17); its docstring names those that
it would not hold without. -/

open Sys2Proof Sys2Proof.Machine

/-! ### Steps and words -/

/-- R6, R120: a step takes the next event and is the meaning of the row that the event's step word selects. That the
events to come are a list whose head is taken is the model's choice (log entry 1). Where the word selects no row, the step
is the fault of that name: with legal codes that is LEN > MAX_BLOCK alone, a stop that the model deduces (log entry 11).
-/
def Obligations.StepRunsTheSelectedRow : Prop :=
  ∀ (s : State) (e : Event) (rest : List Event), LegalCodes s → s.input = e :: rest →
    (∀ i, decode (stepWord s e) = .ok i → step s = exec i { s with input := rest }) ∧
    (∀ err, decode (stepWord s e) = .error err → step s = .fault (faultOf err))

/-- R216: with no event waiting nothing changes (that `step` then answers the same state is the model's choice, log entry
2). -/
def Obligations.NothingHappensBetweenEvents : Prop :=
  ∀ s : State, LegalCodes s → s.input = [] → step s = .next s

/-- R34, R85 (D3): a state that holds a reserved FS or SS code faults. That it does so at once on every event, a reset or no
event included, and that the fault names FS where both codes are reserved, is the model's reading (log entry 5). -/
def Obligations.ReservedCodesFault : Prop :=
  ∀ s : State,
    (s.fs = 0b101#3 ∨ s.fs = 0b110#3 ∨ s.fs = 0b111#3 → step s = .fault .reservedFrameState) ∧
    (s.ss = 0b11#2 → (FrameState.ofCode s.fs).isSome = true → step s = .fault .reservedSessionState)

/-- R80, R81, R83: the step word of each event, with its guards. -/
def Obligations.StepWordsCarryStateEventAndGuards : Prop :=
  ∀ s : State,
    (∀ b, ∃ r z, stepWord s (.rxb b) = .rw (s.fs ++ b) r z ∧
      (r = .left ↔ s.len < s.cfg.maxBlock) ∧ (r = .full ↔ s.len = s.cfg.maxBlock) ∧
      (z = true ↔ s.acc ^^^ b = 0x00#8)) ∧
    (∀ d, sessionWord s d = .sw ((s.ss ++ d.kind.code) ++ BitVec.ofBool s.pv) d.blk d.bcc) ∧
    stepWord s .rxt = .rxt ∧ stepWord s .rst = .rst ∧
    (∀ p, stepWord s (.req p) = .req p s.pv s.cfg.pendPolicy)

/-- R86: words written out from the table decode to their rows. -/
def Obligations.WordsOfTheTableDecode : Prop :=
  decode (.rw 0b00000000010#11 .left false) = .ok .rxResyncStx ∧
  decode (.rw 0b00010000000#11 .left false) = .ok (.rxResyncDiscard 0x80#8) ∧
  decode (.rw 0b00100010101#11 .left false) = .ok .rxIdleNak ∧
  decode (.rw 0b00100000011#11 .left false) = .ok (.rxIdleStart 0x03#8) ∧
  decode (.rw 0b01000010101#11 .full false) = .ok (.rxCollOvf 0x15#8) ∧
  decode (.rw 0b01100000111#11 .left false) = .ok (.rxDlesErr 0x07#8) ∧
  decode (.rw 0b10010111001#11 .left true) = .ok (.rxBccOk 0xB9#8) ∧
  decode (.sw 0b00011#5 [0x10#8] none) = .ok .scHssDle ∧
  decode (.sw 0b01100#5 [0x15#8] none) = .ok (.scHscRej .nak) ∧
  decode (.sw 0b10011#5 [0x10#8] none) = .ok .scLogDleSend ∧
  decode (.sw 0b10110#5 [0x80#8, 0x02#8, 0x28#8] (some 0xB9#8)) =
    .ok (.scLogData (.data [0x80#8, 0x02#8, 0x28#8] 0xB9#8)) ∧
  decode (.txc [0x03#8]) = .ok (.txFrame [0x03#8]) ∧
  decode .rxt = .ok .evRxt

/-- Decoding the encoding of a well-formed row gives the row back, for every operand. -/
def Obligations.DecodeOfEncode : Prop :=
  ∀ i : Instr, i.wf = true → decode (encode i) = .ok i

/-- The decoder makes only well-formed rows (R86, R82; R32 and R134 for a data delivery that is not empty). It holds
because the decoder rejects operands that do not fit the kind, which the model deduces (log entry 18). -/
def Obligations.DecodedRowsAreWellFormed : Prop :=
  ∀ (w : StepWord) (i : Instr), decode w = .ok i → i.wf = true

/-- Nothing that a row's match and guard fix and no operand is lost by decoding: encoding the row gives back the receiver
word, with the LEN guard where the row has one and the checksum guard where it has one, and the session word but for PV
where the row matches either value. What the row leaves free is the encoder's choice (log entry 10), and that operands are
kept rests on their fitting the kind (log entry 18). -/
def Obligations.EncodeOfDecodeKeepsWhatTheRowFixes : Prop :=
  (∀ w room z i, decode (.rw w room z) = .ok i → ∃ room' z', encode i = .rw w room' z' ∧
    ((rwFs w = 0b010#3 ∧ rwByte w ≠ 0x10#8) ∨ (rwFs w = 0b011#3 ∧ rwByte w = 0x10#8) → room' = room) ∧
    (rwFs w = 0b100#3 → z' = z)) ∧
  (∀ w blk bcc i, decode (.sw w blk bcc) = .ok i →
    ∃ w', encode i = .sw w' blk bcc ∧ w' &&& 0x1E#5 = w &&& 0x1E#5 ∧
      (w &&& 0x1E#5 = 0x10#5 ∨ w &&& 0x1E#5 = 0x12#5 → w' = w)) ∧
  (∀ p i, decode (.txc p) = .ok i → encode i = .txc p) ∧
  (∀ p pv policy i, decode (.req p pv policy) = .ok i →
    ∃ policy', encode i = .req p pv policy' ∧ (pv = true → policy' = policy))

/-- R84, R91: for every legal FS and every byte exactly one RW row of the machine-readable table applies, and it is the
row of the instruction that the decoder gives. -/
def Obligations.ExactlyOneReceiverRowApplies : Prop :=
  ∀ (w : BitVec 11) (room : Room) (z : Bool), (FrameState.ofCode (rwFs w)).isSome = true → room ≠ .beyond →
    ∃ i, decode (.rw w room z) = .ok i ∧
      (rwRows.filter (fun r => r.selects w room z)).map (fun r => r.mnemonic) = [i.mnemonic]

/-- R84, R91: for every legal SS, kind and PV exactly one SW row of the table applies, and it is the decoder's; a word with
SS = 0b11 matches no row. -/
def Obligations.ExactlyOneSessionRowApplies : Prop :=
  (∀ (d : Delivery) (ss : BitVec 2) (pv : Bool), d.wf = true → ss ≠ 0b11#2 →
    ∃ i, decode (.sw (swWord ss d.kind.code pv) d.blk d.bcc) = .ok i ∧
      (swRows.filter (fun r => r.selects (swWord ss d.kind.code pv))).map (fun r => r.mnemonic) = [i.mnemonic]) ∧
  (∀ (k : BitVec 2) (pv : Bool), swRows.filter (fun r => r.selects (swWord 0b11#2 k pv)) = [])

/-! ### Receiver rows -/

/-- R121, R122: in RESYNC every byte but the start byte is discarded, without even a diagnostic (D15, log entry 17); the
start byte moves the receiver to IDLE and is delivered in the same step. -/
def Obligations.StartByteEndsResync : Prop :=
  (∀ room z, decode (.rw (rwWord 0b000#3 0x02#8) room z) = .ok .rxResyncStx) ∧
  (∀ b room z, b ≠ 0x02#8 → decode (.rw (rwWord 0b000#3 b) room z) = .ok (.rxResyncDiscard b)) ∧
  ∀ s : State,
    (∀ b, exec (.rxResyncDiscard b) s = .next s) ∧
    (∀ row, decode (sessionWord s .stx) = .ok row → exec .rxResyncStx s = exec row { s with fs := 0b001#3 }) ∧
    ((SessionState.ofCode s.ss).isSome = true →
      (∃ row, decode (sessionWord s .stx) = .ok row) ∧ ∃ t, exec .rxResyncStx s = .next t)

/-- R122: every byte but STX is discarded in RESYNC, with no change and no output (that not even a diagnostic is emitted is
D15). -/
def Obligations.ResyncDiscardsOtherBytes : Prop :=
  ∀ (s : State) (b : Byte) (room : Room) (z : Bool), b ≠ 0x02#8 →
    decode (.rw (rwWord 0b000#3 b) room z) = .ok (.rxResyncDiscard b) ∧ exec (.rxResyncDiscard b) s = .next s

/-- R123, R124, R125: in IDLE each single control byte is delivered at once, with no change of the receiver. -/
def Obligations.ControlBytesInIdleAreDelivered : Prop :=
  (∀ room z, decode (.rw (rwWord 0b001#3 0x02#8) room z) = .ok .rxIdleStx ∧
    decode (.rw (rwWord 0b001#3 0x10#8) room z) = .ok .rxIdleDle ∧
    decode (.rw (rwWord 0b001#3 0x15#8) room z) = .ok .rxIdleNak) ∧
  ∀ s : State,
    (∀ row, decode (sessionWord s .stx) = .ok row → exec .rxIdleStx s = exec row s) ∧
    (∀ row, decode (sessionWord s .dle) = .ok row → exec .rxIdleDle s = exec row s) ∧
    (∀ row, decode (sessionWord s .nak) = .ok row → exec .rxIdleNak s = exec row s) ∧
    ((SessionState.ofCode s.ss).isSome = true →
      (∀ d ∈ [Delivery.stx, .dle, .nak], ∃ row, decode (sessionWord s d) = .ok row) ∧
      (∃ t, exec .rxIdleStx s = .next t) ∧ (∃ t, exec .rxIdleDle s = .next t) ∧ (∃ t, exec .rxIdleNak s = .next t))

/-- R126: a byte outside CTRL in IDLE begins a block: BUF[0], LEN, ACC and FS are written, every other BUF element and
everything else is as before. (That BUF has MAX_BLOCK elements, R50, is part of the invariant.) -/
def Obligations.FirstByteBeginsABlock : Prop :=
  (∀ b room z, b ∉ [0x02#8, 0x10#8, 0x15#8] → decode (.rw (rwWord 0b001#3 b) room z) = .ok (.rxIdleStart b)) ∧
  ∀ (s : State) (b : Byte), 1 ≤ s.cfg.maxBlock → Memory.wf s.buf s.cfg.maxBlock →
    ∃ t, exec (.rxIdleStart b) s = .next t ∧
      t = { s with buf := t.buf, len := 1, acc := b, fs := 0b010#3 } ∧
      Memory.read t.buf 0 = some b ∧ (∀ i, i ≠ 0 → Memory.read t.buf i = Memory.read s.buf i)

/-- R127, R132: a DLE in COLLECTING and the ETX that follows an unpaired DLE are folded into ACC and not stored. -/
def Obligations.EscapeAndTerminatorAreFoldedIntoAcc : Prop :=
  (∀ room z, decode (.rw (rwWord 0b010#3 0x10#8) room z) = .ok .rxCollDle ∧
    decode (.rw (rwWord 0b011#3 0x03#8) room z) = .ok .rxDlesEtx) ∧
  ∀ s : State,
    exec .rxCollDle s = .next { s with acc := s.acc ^^^ 0x10#8, fs := 0b011#3 } ∧
    exec .rxDlesEtx s = .next { s with acc := s.acc ^^^ 0x03#8, fs := 0b100#3 }

/-- R128, R130: with room left, a data byte, or one DLE for a stuffed pair, is stored at BUF[LEN]; LEN, ACC and FS follow,
and every other BUF element and everything else is as before. (That BUF has MAX_BLOCK elements, R50, is part of the
invariant.) -/
def Obligations.DataBytesAreAppended : Prop :=
  (∀ b z, b ≠ 0x10#8 → decode (.rw (rwWord 0b010#3 b) .left z) = .ok (.rxCollAppend b)) ∧
  (∀ z, decode (.rw (rwWord 0b011#3 0x10#8) .left z) = .ok .rxDlesLit) ∧
  ∀ s : State, s.len < s.cfg.maxBlock → Memory.wf s.buf s.cfg.maxBlock →
    (∀ b, ∃ t, exec (.rxCollAppend b) s = .next t ∧
      t = { s with buf := t.buf, len := s.len + 1, acc := s.acc ^^^ b } ∧
      Memory.read t.buf s.len = some b ∧ (∀ i, i ≠ s.len → Memory.read t.buf i = Memory.read s.buf i)) ∧
    (∃ t, exec .rxDlesLit s = .next t ∧
      t = { s with buf := t.buf, len := s.len + 1, acc := s.acc ^^^ 0x10#8, fs := 0b010#3 } ∧
      Memory.read t.buf s.len = some 0x10#8 ∧ (∀ i, i ≠ s.len → Memory.read t.buf i = Memory.read s.buf i))

/-- R129, R131, R204 (D7 for the stuffed literal, D8 for the consumed byte, D15 for the code): a byte for which there is
no room gives the block up, with diagnostic 2, no NAK and no delivery. -/
def Obligations.OversizedBlockIsAbandoned : Prop :=
  diagNumber .oversizedBlock = 2 ∧
  (∀ b z, b ≠ 0x10#8 → decode (.rw (rwWord 0b010#3 b) .full z) = .ok (.rxCollOvf b)) ∧
  (∀ z, decode (.rw (rwWord 0b011#3 0x10#8) .full z) = .ok .rxDlesOvf) ∧
  ∀ s : State,
    (∀ b, exec (.rxCollOvf b) s =
      .next { s with len := 0, fs := 0b000#3,
                     out := s.out ++ (if s.cfg.diagEn then [.diag .oversizedBlock] else []) }) ∧
    exec .rxDlesOvf s =
      .next { s with len := 0, fs := 0b000#3,
                     out := s.out ++ (if s.cfg.diagEn then [.diag .oversizedBlock] else []) }

/-- R133, R205 (D8 for the consumed byte, D15 for the code): a byte other than DLE and ETX after an unpaired DLE gives the
block up, with diagnostic 3 and no NAK. -/
def Obligations.BadEscapeIsAbandoned : Prop :=
  diagNumber .unexpectedAfterEscape = 3 ∧
  (∀ b room z, b ∉ [0x10#8, 0x03#8] → decode (.rw (rwWord 0b011#3 b) room z) = .ok (.rxDlesErr b)) ∧
  ∀ (s : State) (b : Byte),
    exec (.rxDlesErr b) s =
      .next { s with len := 0, fs := 0b000#3,
                     out := s.out ++ (if s.cfg.diagEn then [.diag .unexpectedAfterEscape] else []) }

/-- R134 (D6: the checksum byte travels beside the block): with the checksum right, the held block BUF[0..LEN) is delivered
after the receiver's own writes, in every SS. -/
def Obligations.VerifiedBlockIsDelivered : Prop :=
  (∀ b room, decode (.rw (rwWord 0b100#3 b) room true) = .ok (.rxBccOk b)) ∧
  ∀ (s : State) (b : Byte), (SessionState.ofCode s.ss).isSome = true → 1 ≤ s.len →
    s.len ≤ s.cfg.maxBlock → Memory.wf s.buf s.cfg.maxBlock →
    ∃ blk row t, blk.length = s.len ∧ (∀ i, i < s.len → blk[i]? = Memory.read s.buf i) ∧
      decode (sessionWord s (.data blk b)) = .ok row ∧
      exec (.rxBccOk b) s = exec row { s with acc := s.acc ^^^ b, len := 0, fs := 0b001#3 } ∧
      exec (.rxBccOk b) s = .next t

/-- R135, R203 (D15 for the code): with the checksum wrong, diagnostic 1 and then one NAK, in every SS; nothing is
delivered. -/
def Obligations.WrongChecksumIsAnsweredWithNak : Prop :=
  diagNumber .checksumMismatch = 1 ∧
  (∀ b room, decode (.rw (rwWord 0b100#3 b) room false) = .ok (.rxBccBad b)) ∧
  ∀ (s : State) (b : Byte),
    exec (.rxBccBad b) s =
      .next { s with acc := s.acc ^^^ b, len := 0, fs := 0b001#3,
                     out := s.out ++ ((if s.cfg.diagEn then [.diag .checksumMismatch] else []) ++ [.txByte 0x15#8]) }

/-- Where each receiver row stops, and that it completes everywhere else: the rows that deliver stop on a reserved SS
(R34), the rows that store on an index that BUF has not (R50; log entry 12), RX.BCC.OK on either. -/
def Obligations.ReceiverRowsStopOnlyHere : Prop :=
  ∀ (s : State) (b : Byte),
    (∀ i ∈ [Instr.rxResyncDiscard b, .rxCollDle, .rxCollOvf b, .rxDlesOvf, .rxDlesEtx, .rxDlesErr b, .rxBccBad b],
      ∃ t, exec i s = .next t) ∧
    (∀ i ∈ [Instr.rxResyncStx, .rxIdleStx, .rxIdleDle, .rxIdleNak],
      (s.ss = 0b11#2 → exec i s = .fault .reservedSessionState) ∧ (s.ss ≠ 0b11#2 → ∃ t, exec i s = .next t)) ∧
    (s.buf.length = 0 → exec (.rxIdleStart b) s = .fault (.bufIndex 0)) ∧
    (0 < s.buf.length → ∃ t, exec (.rxIdleStart b) s = .next t) ∧
    (∀ i ∈ [Instr.rxCollAppend b, .rxDlesLit],
      (s.buf.length ≤ s.len → exec i s = .fault (.bufIndex s.len)) ∧
      (s.len < s.buf.length → ∃ t, exec i s = .next t)) ∧
    (s.buf.length < s.len → exec (.rxBccOk b) s = .fault (.bufIndex s.buf.length)) ∧
    (s.len ≤ s.buf.length →
      (s.ss = 0b11#2 → exec (.rxBccOk b) s = .fault .reservedSessionState) ∧
      (s.ss ≠ 0b11#2 → ∃ t, exec (.rxBccOk b) s = .next t))

/-! ### Session rows -/

/-- R151, R156, R157: a poll is answered with STX in HANDSHAKE_START and in LOGGING with a command pending, and with DLE in
LOGGING with none; nothing else changes. -/
def Obligations.PollsAreAnswered : Prop :=
  (∀ pv, decode (.sw (swWord 0b00#2 0b00#2 pv) [0x02#8] none) = .ok .scHssStx) ∧
  decode (.sw 0b10001#5 [0x02#8] none) = .ok .scLogStxPend ∧
  decode (.sw 0b10000#5 [0x02#8] none) = .ok .scLogStxIdle ∧
  ∀ s : State,
    exec .scHssStx s = .next { s with out := s.out ++ [.txByte 0x02#8] } ∧
    exec .scLogStxPend s = .next { s with out := s.out ++ [.txByte 0x02#8] } ∧
    exec .scLogStxIdle s = .next { s with out := s.out ++ [.txByte 0x10#8] }

/-- R152: a DLE in HANDSHAKE_START sends the encoded LOGCMD, by default EE 00 00 10 03 FD, and moves to HANDSHAKE_CONFIRM.
-/
def Obligations.DleInHandshakeStartRequestsLogging : Prop :=
  (∀ pv, decode (.sw (swWord 0b00#2 0b01#2 pv) [0x10#8] none) = .ok .scHssDle) ∧
  ∀ s : State,
    exec .scHssDle s = .next { s with ss := 0b01#2, out := s.out ++ (encodeBlock s.cfg.logCmd).map .txByte } ∧
    (s.cfg.logCmd = [0xEE#8, 0x00#8, 0x00#8] →
      encodeBlock s.cfg.logCmd = [0xEE#8, 0x00#8, 0x00#8, 0x10#8, 0x03#8, 0xFD#8])

/-- R153: a NAK or a verified block in HANDSHAKE_START is ignored. -/
def Obligations.HandshakeStartIgnoresNakAndData : Prop :=
  (∀ pv, decode (.sw (swWord 0b00#2 0b10#2 pv) [0x15#8] none) = .ok (.scHssIgn .nak)) ∧
  (∀ pv blk c, blk ≠ [] → decode (.sw (swWord 0b00#2 0b11#2 pv) blk (some c)) = .ok (.scHssIgn (.data blk c))) ∧
  ∀ (s : State) (d : Delivery), exec (.scHssIgn d) s = .next s

/-- R154: a DLE in HANDSHAKE_CONFIRM moves to LOGGING with no output. -/
def Obligations.DleInHandshakeConfirmEntersLogging : Prop :=
  (∀ pv, decode (.sw (swWord 0b01#2 0b01#2 pv) [0x10#8] none) = .ok .scHscDle) ∧
  ∀ s : State, exec .scHscDle s = .next { s with ss := 0b10#2 }

/-- R155, R206 (D10: no reply and no second run of the delivery; D15 for the code): every other delivery in
HANDSHAKE_CONFIRM rejects the handshake, with diagnostic 4. -/
def Obligations.OtherDeliveryRejectsTheHandshake : Prop :=
  diagNumber .handshakeRejection = 4 ∧
  (∀ pv, decode (.sw (swWord 0b01#2 0b00#2 pv) [0x02#8] none) = .ok (.scHscRej .stx)) ∧
  (∀ pv, decode (.sw (swWord 0b01#2 0b10#2 pv) [0x15#8] none) = .ok (.scHscRej .nak)) ∧
  (∀ pv blk c, blk ≠ [] → decode (.sw (swWord 0b01#2 0b11#2 pv) blk (some c)) = .ok (.scHscRej (.data blk c))) ∧
  ∀ (s : State) (d : Delivery),
    exec (.scHscRej d) s =
      .next { s with ss := 0b00#2, out := s.out ++ (if s.cfg.diagEn then [.diag .handshakeRejection] else []) }

/-- R158: a DLE in LOGGING with a command pending sends PBUF's eight bytes as one frame, clears PV and restarts the
handshake, all in one step. That it does so with no STX poll before it, where R243 names one in its order, is the model's
reading of the two rules (log entry 19). -/
def Obligations.PendingCommandIsSentOnce : Prop :=
  decode (.sw 0b10011#5 [0x10#8] none) = .ok .scLogDleSend ∧
  ∀ s : State,
    decode (.txc s.pbuf.toList) = .ok (.txFrame s.pbuf.toList) ∧
    exec .scLogDleSend s =
      .next { s with pv := false, ss := 0b00#2, out := s.out ++ (frame s.pbuf.toList).map .txByte }

/-- R159 (D9: the source does not say what happens): a DLE in LOGGING with nothing pending emits diagnostic 6 and does
nothing else. -/
def Obligations.DleWithNothingPendingIsOnlyReported : Prop :=
  diagNumber .unexpectedDle = 6 ∧
  decode (.sw 0b10010#5 [0x10#8] none) = .ok .scLogDleNop ∧
  ∀ s : State,
    exec .scLogDleNop s =
      .next { s with out := s.out ++ (if s.cfg.diagEn then [.diag .unexpectedDle] else []) }

/-- R160 (C6 for the NAK and D6 for the checksum byte beside the block, log entry 17): inbound data in LOGGING, a NAK too,
is handed to the decoder and then acknowledged with DLE. -/
def Obligations.DataIsDecodedThenAcknowledged : Prop :=
  (∀ pv, decode (.sw (swWord 0b10#2 0b10#2 pv) [0x15#8] none) = .ok (.scLogData .nak)) ∧
  (∀ pv blk c, blk ≠ [] → decode (.sw (swWord 0b10#2 0b11#2 pv) blk (some c)) = .ok (.scLogData (.data blk c))) ∧
  ∀ s : State,
    exec (.scLogData .nak) s = .next { s with out := s.out ++ [.dec [0x15#8] none, .txByte 0x10#8] } ∧
    (∀ blk c, exec (.scLogData (.data blk c)) s = .next { s with out := s.out ++ [.dec blk (some c), .txByte 0x10#8] })

/-! ### Encoder rows and frames -/

/-- R101, R102: an empty payload transmits nothing, a single control byte goes out raw; R103's row transmits the frame.
Each row is chosen by the payload alone, transmits `Encode` of it and changes nothing else (that a TXC row run as an
instruction transmits is log entry 15). -/
def Obligations.EncoderRowsTransmitTheirEncoding : Prop :=
  (decode (.txc []) = .ok .txNone ∧ encodeBlock [] = []) ∧
  (∀ c, c ∈ [0x02#8, 0x10#8, 0x15#8] → decode (.txc [c]) = .ok (.txCtrl c) ∧ encodeBlock [c] = [c]) ∧
  (∀ p, p ≠ [] → (∀ c, c ∈ [0x02#8, 0x10#8, 0x15#8] → p ≠ [c]) →
    decode (.txc p) = .ok (.txFrame p) ∧ encodeBlock p = frame p) ∧
  ∀ s : State,
    exec .txNone s = .next s ∧
    (∀ c, exec (.txCtrl c) s = .next { s with out := s.out ++ [.txByte c] }) ∧
    (∀ p, exec (.txFrame p) s = .next { s with out := s.out ++ (frame p).map .txByte })

/-- R101, R102, R103: `Encode` is nothing for an empty payload, the byte itself for a single control byte, and for every
other payload what R103's loop builds, byte by byte with a running BCC. -/
def Obligations.EncodeIsWhatTheEncodingLoopBuilds : Prop :=
  encodeBlock [] = [] ∧
  (∀ c, c ∈ [0x02#8, 0x10#8, 0x15#8] → encodeBlock [c] = [c]) ∧
  (∀ p, p ≠ [] → (∀ c, c ∈ [0x02#8, 0x10#8, 0x15#8] → p ≠ [c]) → encodeBlock p = frameByLoop p)

/-- R74: the checksum is the exclusive-or of every byte of the frame before it, so the exclusive-or of all its bytes, BCC
included, is zero. -/
def Obligations.FrameXorsToZero : Prop :=
  ∀ p : List Byte, ∃ bcc, frame p = stuff p ++ [0x10#8, 0x03#8] ++ [bcc] ∧
    bcc = xorAll (stuff p ++ [0x10#8, 0x03#8]) ∧ xorAll (frame p) = 0x00#8

/-- R73: a frame of a payload of N bytes, d of them DLE, has N + d + 3 bytes and ends in DLE, ETX, BCC. -/
def Obligations.FrameLengthCountsStuffing : Prop :=
  ∀ p : List Byte, (frame p).length = p.length + p.count 0x10#8 + 3 ∧
    ∃ bcc, frame p = stuff p ++ [0x10#8, 0x03#8, bcc]

/-- R75, R110: stuffing doubles each DLE and leaves every other byte, in order. -/
def Obligations.StuffingDoublesOnlyDle : Prop :=
  ∀ p : List Byte,
    (stuff p).filter (fun b => b ≠ 0x10#8) = p.filter (fun b => b ≠ 0x10#8) ∧
    (∀ c, c ≠ 0x10#8 → (stuff p).count c = p.count c) ∧ (stuff p).count 0x10#8 = 2 * p.count 0x10#8 ∧
    (∀ q, stuff (p ++ [0x10#8] ++ q) = stuff p ++ [0x10#8, 0x10#8] ++ stuff q)

/-- R109 (D6 for the checksum beside the block): the receiver, from IDLE, gives back what the encoder was given. (a) For a
payload of 1 to MAX_BLOCK bytes that does not begin with a control byte, the bytes of its encoding end in the one session
step that its DATA delivery, with the frame's BCC, selects, and before it nothing of the session or of OUT has changed.
(b) The encoding of a single control byte is its one-byte delivery. -/
def Obligations.EncodedPayloadsAreReceived : Prop :=
  (∀ (s : State) (b : Byte) (q : List Byte), s.fs = 0b001#3 → (SessionState.ofCode s.ss).isSome = true →
    b ∉ [0x02#8, 0x10#8, 0x15#8] → (b :: q).length ≤ s.cfg.maxBlock → Memory.wf s.buf s.cfg.maxBlock →
    ∃ row t, decode (sessionWord s (.data (b :: q) (frameBcc (b :: q)))) = .ok row ∧
      t = { s with buf := t.buf, len := 0, acc := 0x00#8 } ∧
      runSteps (encodeBlock (b :: q)).length (withBytes (encodeBlock (b :: q)) s) = exec row t) ∧
  (∀ (s : State) (d : Delivery), s.fs = 0b001#3 → (SessionState.ofCode s.ss).isSome = true → d.bcc = none →
    ∃ row, decode (sessionWord s d) = .ok row ∧
      runSteps (encodeBlock d.blk).length (withBytes (encodeBlock d.blk) s) = exec row s)

/-- R135, R203 (D15 for the code, D19 for RXFBAD): a frame whose BCC is spoiled in any bits is answered with diagnostic 1
and one NAK, whatever its content: no delivery, no change of the session. R90: `RXFBAD` sends such a frame. -/
def Obligations.SpoiledFramesAreAnsweredWithNak : Prop :=
  (∀ (s : State) (b x : Byte) (q : List Byte), s.fs = 0b001#3 → (SessionState.ofCode s.ss).isSome = true →
    b ∉ [0x02#8, 0x10#8, 0x15#8] → (b :: q).length ≤ s.cfg.maxBlock → Memory.wf s.buf s.cfg.maxBlock →
    x ≠ 0x00#8 →
    ∃ t, t = { s with buf := t.buf, len := 0, acc := x,
                      out := s.out ++ ((if s.cfg.diagEn then [.diag .checksumMismatch] else []) ++ [.txByte 0x15#8]) } ∧
      runSteps (stuff (b :: q) ++ [0x10#8, 0x03#8, frameBcc (b :: q) ^^^ x]).length
        (withBytes (stuff (b :: q) ++ [0x10#8, 0x03#8, frameBcc (b :: q) ^^^ x]) s) = .next t) ∧
  (∀ (b : Byte) (q : List Byte), b ∉ [0x02#8, 0x10#8, 0x15#8] →
    expandStimulus (.rxfBad (b :: q)) =
      (stuff (b :: q) ++ [0x10#8, 0x03#8, frameBcc (b :: q) ^^^ 0x01#8]).map .rxb)

/-- R109, R204 (D7 where the byte too many is a DLE, D8 where it is STX, D15 for the code; log entry 17): a payload longer
than MAX_BLOCK, here `b :: q ++ r` with one byte too many in `b :: q`, is given up with that byte: RESYNC, diagnostic 2,
nothing delivered and nothing sent, and the rest of its frame is read in RESYNC. If that rest holds no STX, the whole
frame leaves nothing else. -/
def Obligations.OverlongPayloadsAreAbandoned : Prop :=
  ∀ (s : State) (b : Byte) (q r : List Byte), s.fs = 0b001#3 → (SessionState.ofCode s.ss).isSome = true →
    b ∉ [0x02#8, 0x10#8, 0x15#8] → 1 ≤ s.cfg.maxBlock → (b :: q).length = s.cfg.maxBlock + 1 →
    Memory.wf s.buf s.cfg.maxBlock →
    ∃ t, t = { s with fs := 0b000#3, buf := t.buf, len := 0, acc := t.acc,
                      out := s.out ++ (if s.cfg.diagEn then [.diag .oversizedBlock] else []) } ∧
      encodeBlock (b :: q ++ r) = stuff (b :: q) ++ (stuff r ++ [0x10#8, 0x03#8, frameBcc (b :: q ++ r)]) ∧
      runSteps (stuff (b :: q)).length (withBytes (encodeBlock (b :: q ++ r)) s) =
        .next (withBytes (stuff r ++ [0x10#8, 0x03#8, frameBcc (b :: q ++ r)]) t) ∧
      (0x02#8 ∉ r → frameBcc (b :: q ++ r) ≠ 0x02#8 →
        runSteps (encodeBlock (b :: q ++ r)).length (withBytes (encodeBlock (b :: q ++ r)) s) = .next t)

/-- R139 (D6 for the checksum beside the block): whatever bytes came before, a block that is handed to the decoder with a
checksum byte is the block that the receiver held, of 1 to MAX_BLOCK bytes, not beginning with a control byte, and the
exclusive-or of its frame is zero. A delivery with no checksum byte is a NAK (C6, log
entry 17). Both happen only in LOGGING. -/
def Obligations.DecodedBlocksWereVerified : Prop :=
  ∀ (s t : State) (l : List OutEvent) (blk : List Byte) (bcc : Option Byte), Inv s → step s = .next t →
    t.out = s.out ++ l → .dec blk bcc ∈ l →
    s.ss = 0b10#2 ∧
    ((bcc = none ∧ blk = [0x15#8]) ∨
      ∃ c, bcc = some c ∧ s.fs = 0b100#3 ∧ s.input.head? = some (.rxb c) ∧ heldBlock s = some blk ∧
        1 ≤ blk.length ∧ blk.length ≤ s.cfg.maxBlock ∧ (∀ b, blk.head? = some b → b ∉ [0x02#8, 0x10#8, 0x15#8]) ∧
        xorAll (stuff blk ++ [0x10#8, 0x03#8, c]) = 0x00#8)

/-! ### Host events -/

/-- R180, R138: a read timeout changes nothing, in every state. -/
def Obligations.TimeoutChangesNothing : Prop :=
  decode .rxt = .ok .evRxt ∧ ∀ s : State, exec .evRxt s = .next s

/-- R181: a load into the empty slot fills it whole and is accepted, in every SS and for any eight bytes. -/
def Obligations.RequestFillsTheEmptySlot : Prop :=
  (∀ p policy, decode (.req p false policy) = .ok (.evReqAccept p)) ∧
  ∀ (s : State) (p : Payload),
    exec (.evReqAccept p) s = .next { s with pbuf := p, pv := true, out := s.out ++ [.reqAck .accepted] }

/-- R182 (D15 for the code): under REJECT a load into the full slot answers busy, with diagnostic 5, and keeps the earlier
command. -/
def Obligations.RequestIntoAFullSlotIsRejected : Prop :=
  diagNumber .slotBusy = 5 ∧
  (∀ p, decode (.req p true .reject) = .ok (.evReqBusy p)) ∧
  ∀ (s : State) (p : Payload),
    exec (.evReqBusy p) s =
      .next { s with out := s.out ++ ([.reqAck .busy] ++ (if s.cfg.diagEn then [.diag .slotBusy] else [])) }

/-- R183 (D11): under OVERWRITE a load into the full slot replaces the earlier command and is accepted. -/
def Obligations.RequestIntoAFullSlotOverwrites : Prop :=
  (∀ p, decode (.req p true .overwrite) = .ok (.evReqOverwrite p)) ∧
  ∀ (s : State) (p : Payload),
    exec (.evReqOverwrite p) s = .next { s with pbuf := p, pv := true, out := s.out ++ [.reqAck .accepted] }

/-- R230, R35 (D4, D5): reset writes FS, LEN, ACC, SS and PV, emits nothing and shortens nothing. BUF has MAX_BLOCK bytes
after it and PBUF eight; nothing is said of their values, which R230 leaves unspecified (log entry 9). -/
def Obligations.ResetWritesTheResetValues : Prop :=
  decode .rst = .ok .evRst ∧
  ∀ s : State, ∃ t, exec .evRst s = .next t ∧
    t = { s with fs := (match s.cfg.rxResetState with | .resync => 0b000#3 | .idle => 0b001#3),
                 len := 0, acc := 0x00#8, ss := 0b00#2, pv := false,
                 buf := t.buf, pbuf := t.pbuf, draws := t.draws } ∧
    Memory.wf t.buf s.cfg.maxBlock

/-! ### The whole machine -/

/-- R24, R25, R34, R36, R137 (D4 and D5 for the reset values): the state after power-on meets the invariant, under every
legal configuration. -/
def Obligations.PowerOnMeetsTheInvariant : Prop :=
  Inv State.reset ∧ ∀ c : Config, 1 ≤ c.maxBlock → Inv (State.powerOn c)

/-- R24, R25, R34, R137 (D7 for the bound of LEN): every step keeps the invariant: the codes stay legal, LEN stays in its
range and is 0 outside a block, BUF keeps its MAX_BLOCK elements, and ACC is the exclusive-or of the bytes received since
the block began. -/
def Obligations.EveryStepKeepsTheInvariant : Prop :=
  ∀ s t : State, Inv s → step s = .next t → Inv t

/-- R208 (D7): from a state that meets the invariant no input stops the machine: no step faults or refuses, and no index
is used that BUF has not (R50; log entry 12). That a step with no event waiting answers a state is the model's choice (log
entry 2). -/
def Obligations.NoInputStopsTheMachine : Prop :=
  ∀ s : State, Inv s → ∃ t, step s = .next t

/-- R32 (D2), R61: a step only appends to OUT. -/
def Obligations.OutputIsOnlyAppended : Prop :=
  ∀ s t : State, step s = .next t → ∃ l, t.out = s.out ++ l

/-- R33, R6: no event writes a parameter, and a step consumes exactly the next event. That the events to come are a list
in the state and the parameters a field of it is the model's choice (log entries 1 and 4), and so is the step with no
event waiting, which consumes none (log entry 2). -/
def Obligations.ParametersStayAndOneEventIsConsumed : Prop :=
  ∀ s t : State, step s = .next t → t.cfg = s.cfg ∧ t.input = s.input.tail

/-- R20, R28: the receiver's elements and SS change only in a step of a received byte or a reset, PV only in one of these
or a load, PBUF only in a load, which writes all of it, or a reset. -/
def Obligations.EveryElementHasItsWriters : Prop :=
  ∀ s t : State, step s = .next t →
    ((t.fs ≠ s.fs ∨ t.len ≠ s.len ∨ t.acc ≠ s.acc ∨ t.ss ≠ s.ss ∨ t.buf ≠ s.buf) →
      (∃ b, s.input.head? = some (.rxb b)) ∨ s.input.head? = some .rst) ∧
    (t.pv ≠ s.pv →
      (∃ b, s.input.head? = some (.rxb b)) ∨ (∃ p, s.input.head? = some (.req p)) ∨ s.input.head? = some .rst) ∧
    (t.pbuf ≠ s.pbuf → (∃ p, s.input.head? = some (.req p) ∧ t.pbuf = p) ∨ s.input.head? = some .rst)

/-- R56a: a step other than a reset writes BUF at one index at most: 0 when it begins a block, LEN when it appends. -/
def Obligations.BufChangesOnlyWhereAByteIsStored : Prop :=
  ∀ (s t : State) (j : Nat), step s = .next t → s.input.head? ≠ some .rst →
    j ≠ (if s.fs = 0b001#3 then 0 else s.len) → Memory.read t.buf j = Memory.read s.buf j

/-- R30: PV is set only by a load, with its payload, and cleared only by the send in LOGGING or by reset. -/
def Obligations.PendingFlagChangesOnlyByLoadSendAndReset : Prop :=
  ∀ s t : State, step s = .next t →
    (s.pv = false → t.pv = true → ∃ p, s.input.head? = some (.req p) ∧ t.pbuf = p) ∧
    (s.pv = true → t.pv = false →
      s.input.head? = some .rst ∨
        (s.input.head? = some (.rxb 0x10#8) ∧ s.fs = 0b001#3 ∧ s.ss = 0b10#2 ∧ t.ss = 0b00#2 ∧
          t.out = s.out ++ (frame s.pbuf.toList).map .txByte))

/-- R163, R150, R158, R159, R211: the only changes of SS. LOGGING is entered only from HANDSHAKE_CONFIRM and that only from
HANDSHAKE_START, each by a DLE received in IDLE; a rejection needs a delivery, and a rejecting delivery is not run again
(D10); LOGGING is left only by the send and by reset, so not by a DLE with nothing pending (D9) nor by a NAK (C6). So no
framing error changes SS, an oversized block (D7) and a consumed STX (D8) included. The decisions are those of log entry
17. -/
def Obligations.SessionChangesOnlyOnItsTransitions : Prop :=
  ∀ s t : State, step s = .next t → t.ss ≠ s.ss →
    (s.input.head? = some .rst ∧ t.ss = 0b00#2) ∨
    (s.ss = 0b00#2 ∧ t.ss = 0b01#2 ∧ s.fs = 0b001#3 ∧ s.input.head? = some (.rxb 0x10#8)) ∨
    (s.ss = 0b01#2 ∧ t.ss = 0b10#2 ∧ s.fs = 0b001#3 ∧ s.input.head? = some (.rxb 0x10#8) ∧ t.out = s.out) ∨
    (s.ss = 0b01#2 ∧ t.ss = 0b00#2 ∧ ∃ b, s.input.head? = some (.rxb b) ∧
      ((s.fs = 0b000#3 ∧ b = 0x02#8) ∨ (s.fs = 0b001#3 ∧ (b = 0x02#8 ∨ b = 0x15#8)) ∨
        (s.fs = 0b100#3 ∧ s.acc ^^^ b = 0x00#8))) ∨
    (s.ss = 0b10#2 ∧ t.ss = 0b00#2 ∧ s.fs = 0b001#3 ∧ s.input.head? = some (.rxb 0x10#8) ∧ s.pv = true)

/-- R121, R122: RESYNC is left only on the start byte, for IDLE, or by reset. -/
def Obligations.ResyncIsLeftOnlyOnTheStartByte : Prop :=
  ∀ s t : State, step s = .next t → s.fs = 0b000#3 → t.fs ≠ 0b000#3 →
    t.fs = 0b001#3 ∧ (s.input.head? = some (.rxb 0x02#8) ∨ s.input.head? = some .rst)

/-- R161, R100, R106: a step transmits at most one encoded payload, one of those R106 lists, and only when a byte was
received. -/
def Obligations.AtMostOneReplyAStep : Prop :=
  ∀ (s t : State) (l : List OutEvent), step s = .next t → t.out = s.out ++ l →
    txBytes l = [] ∨
      ((∃ b, s.input.head? = some (.rxb b)) ∧
        ∃ p ∈ [[0x15#8], [0x02#8], [0x10#8], s.cfg.logCmd, s.pbuf.toList], txBytes l = encodeBlock p)

/-- R210, R202 (D15): a step reports at most one condition, and none where DIAG_EN is false. -/
def Obligations.AtMostOneDiagnosticAStep : Prop :=
  ∀ (s t : State) (l : List OutEvent), step s = .next t → t.out = s.out ++ l →
    (diags l).length ≤ 1 ∧ (s.cfg.diagEn = false → diags l = [])

/-- R181 to R183 (D11 for OVERWRITE): each load is answered exactly once, busy only where the slot is full under REJECT,
and nothing else is answered. -/
def Obligations.EachRequestIsAnsweredOnce : Prop :=
  ∀ (s t : State) (l : List OutEvent), step s = .next t → t.out = s.out ++ l →
    (∀ p, s.input.head? = some (.req p) →
      reqAcks l = [if s.pv = true ∧ s.cfg.pendPolicy = .reject then .busy else .accepted]) ∧
    ((∀ p, s.input.head? ≠ some (.req p)) → reqAcks l = [])

/-- R202 (D15): DIAG_EN changes no other effect of any rule: switched off, a step does the same without the `Diag` events,
and stops where it stopped. -/
def Obligations.DiagnosticsChangeNothingElse : Prop :=
  ∀ s : State, s.cfg.diagEn = true →
    (∀ t l, step s = .next t → t.out = s.out ++ l →
      step { s with cfg := { s.cfg with diagEn := false } } =
        .next { t with cfg := { s.cfg with diagEn := false }, out := s.out ++ withoutDiags l }) ∧
    (∀ f, step s = .fault f → step { s with cfg := { s.cfg with diagEn := false } } = .fault f)

/-- R36, R31, U3 to U5: dead state is never read: two states that differ only in ACC outside a block, in BUF from LEN on
and in PBUF while PV = 0 step alike, emit the same and stay so. So the reset values of ACC, BUF and PBUF cannot be
observed. That a DLE in LOGGING with PV = 0 sends no PBUF is D9 (log entry 17). -/
def Obligations.DeadStateIsNeverObserved : Prop :=
  ∀ s t : State, SameLive s t → SameLiveResult (step s) (step t)

/-- R53 (D16), for decoder models only: the register address has the first byte in the more significant place. -/
def Obligations.RegisterAddressHasTheFirstByteHigh : Prop :=
  ∀ (a b : Byte) (l : List Byte), ∃ w, registerAddress (a :: b :: l) = some w ∧ w.toNat = a.toNat * 256 + b.toNat

/-! ### Payloads that the receiver cannot give back -/

/-- R109, R241: a payload of two or more bytes whose first byte is the control byte of delivery `d` does not come back.
Its first byte is delivered alone, as `d`, and the rest of its frame is read as a new stream from IDLE. After STX or NAK
that stream is the frame of the rest with its BCC spoiled by the first byte, so a rest that could be received is answered
with diagnostic 1 and one NAK (D15 for the code, log entry 17). After DLE it is a second DLE and then the good frame of
the rest. -/
def Obligations.PayloadsThatBeginWithAControlByteAreMisread : Prop :=
  ∀ (s : State) (d : Delivery) (c b : Byte) (q : List Byte), s.fs = 0b001#3 → (SessionState.ofCode s.ss).isSome = true →
    d.bcc = none → d.blk = [c] →
    ∃ row t rest, decode (sessionWord s d) = .ok row ∧ exec row s = .next t ∧ t.fs = 0b001#3 ∧
      encodeBlock (c :: b :: q) = c :: rest ∧
      (∀ n, runSteps (n + 1) (withBytes (encodeBlock (c :: b :: q)) s) = runSteps n (withBytes rest t)) ∧
      (c ≠ 0x10#8 → rest = stuff (b :: q) ++ [0x10#8, 0x03#8, frameBcc (b :: q) ^^^ c]) ∧
      (c = 0x10#8 → rest = 0x10#8 :: frame (b :: q)) ∧
      (c ≠ 0x10#8 → b ∉ [0x02#8, 0x10#8, 0x15#8] → (b :: q).length ≤ s.cfg.maxBlock → Memory.wf s.buf s.cfg.maxBlock →
        ∃ u, u = { t with buf := u.buf, len := 0, acc := c,
                          out := t.out ++ ((if s.cfg.diagEn then [.diag .checksumMismatch] else []) ++
                            [.txByte 0x15#8]) } ∧
          runSteps (encodeBlock (c :: b :: q)).length (withBytes (encodeBlock (c :: b :: q)) s) = .next u)
end

