-- ==== Sys2Proof/Laws/Codec.lean ====
section
/-! SUPPORT. Exclusive-or of lists, stuffing and frames. -/

namespace Sys2Proof

@[simp] theorem xorAll_nil : xorAll [] = 0x00#8 := rfl
@[simp] theorem xorAll_cons (b : Byte) (l : List Byte) : xorAll (b :: l) = b ^^^ xorAll l := rfl

@[simp] theorem xorAll_append (l m : List Byte) : xorAll (l ++ m) = xorAll l ^^^ xorAll m := by
  induction l with
  | nil => simp
  | cons b l ih => simp [ih, BitVec.xor_assoc]

end Sys2Proof

namespace Sys2Proof.Machine

@[simp] theorem stuff_nil : stuff [] = [] := rfl

theorem stuff_cons (b : Byte) (p : List Byte) : stuff (b :: p) = stuff [b] ++ stuff p := by
  by_cases h : b = DLE <;> simp [stuff, h]

@[simp] theorem stuff_append (p q : List Byte) : stuff (p ++ q) = stuff p ++ stuff q := by
  induction p with
  | nil => simp
  | cons b p ih =>
    rw [List.cons_append, stuff_cons, ih, stuff_cons b p, List.append_assoc]

theorem stuff_single_dle : stuff [DLE] = [DLE, DLE] := rfl

theorem stuff_single_other {b : Byte} (h : b ≠ DLE) : stuff [b] = [b] := by
  simp [stuff, h]

/-- A payload that is neither empty nor one control byte is framed (R82, R103). -/
theorem encodeBlock_of_framed {p : List Byte} (h : (Instr.txFrame p).wf = true) : encodeBlock p = frame p := by
  match p, h with
  | [], h => simp [Instr.wf] at h
  | [c], h =>
    have hc : c ∉ CTRL := by simpa only [Instr.wf, decide_eq_true_eq] using h
    simp only [encodeBlock, hc, if_false]
  | _ :: _ :: _, _ => rfl

/-- A block that does not begin with a control byte is framed. -/
theorem encodeBlock_of_start {b : Byte} (p : List Byte) (h : b ∉ CTRL) :
    encodeBlock (b :: p) = frame (b :: p) := by
  cases p with
  | nil => simp only [encodeBlock, h, if_false]
  | cons c p => rfl

/-- PBUF is always framed (R158). -/
theorem encodeBlock_payload (p : Payload) : encodeBlock p.toList = frame p.toList := by
  have h : p.toList.length = 8 := by simp
  match hp : p.toList, h with
  | _ :: _ :: _, _ => rfl

end Sys2Proof.Machine
end

