-- ==== Sys2Proof/Laws/Memory.lean ====
section
/-! SUPPORT. Byte arrays: read after write, the fixed size, and the prefix that a block occupies. -/

namespace Sys2Proof.Machine

theorem memory_read_write {m : Memory} {i : Nat} (h : i < m.length) (j : Nat) (b : Byte) :
    Memory.read (Memory.write m i b) j = if j = i then some b else Memory.read m j := by
  by_cases hj : j = i
  · subst hj; simp [Memory.read, Memory.write, h]
  · simp [Memory.read, Memory.write, hj, List.getElem?_set_ne (Ne.symm hj)]

/-- Reading the index that was written. -/
theorem memory_read_write_same {m : Memory} {i : Nat} (h : i < m.length) (b : Byte) :
    Memory.read (Memory.write m i b) i = some b := by
  simp [memory_read_write h]

/-- Every other index reads as before. -/
theorem memory_read_write_other (m : Memory) {i j : Nat} (b : Byte) (h : j ≠ i) :
    Memory.read (Memory.write m i b) j = Memory.read m j := by
  simp [Memory.read, Memory.write, List.getElem?_set_ne (Ne.symm h)]

/-- An element exists exactly at the indices below the size. -/
theorem memory_read_isSome (m : Memory) (i : Nat) : (Memory.read m i).isSome = true ↔ i < m.length := by
  simp [Memory.read]

/-! ### The fixed size -/

@[simp] theorem memory_write_length (m : Memory) (i : Nat) (b : Byte) : (Memory.write m i b).length = m.length := by
  simp [Memory.write]

/-- Writing keeps the size. -/
theorem memory_write_wf {m : Memory} {n : Nat} (h : Memory.wf m n) (i : Nat) (b : Byte) :
    Memory.wf (Memory.write m i b) n := by
  simpa [Memory.wf] using h

@[simp] theorem freeBytes_length (n k : Nat) : (freeBytes n k).length = n := by
  induction n generalizing k with
  | zero => rfl
  | succ n ih => simp [freeBytes, ih]

theorem powerOn_buf_wf (c : Config) : Memory.wf (State.powerOn c).buf c.maxBlock := by
  simp [Memory.wf, State.powerOn]

theorem applyReset_buf_wf (s : State) : Memory.wf (applyReset s).buf s.cfg.maxBlock := by
  simp [Memory.wf, applyReset]

/-! ### The prefix a block occupies -/

theorem memory_firstBytes_inside {m : Memory} {n : Nat} (h : n ≤ m.length) :
    Memory.firstBytes m n = some (m.take n) := by
  simp [Memory.firstBytes, h]

theorem memory_firstBytes_outside {m : Memory} {n : Nat} (h : m.length < n) : Memory.firstBytes m n = none := by
  simp [Memory.firstBytes, Nat.not_le.2 h]

theorem memory_firstBytes_length {m : Memory} {n : Nat} {l : List Byte} (h : Memory.firstBytes m n = some l) :
    l.length = n := by
  rcases Nat.lt_or_ge m.length n with hn | hn
  · rw [memory_firstBytes_outside hn] at h; cases h
  · rw [memory_firstBytes_inside hn] at h; cases h; simp [hn]

/-- The prefix depends on the size and on its own elements only. -/
theorem memory_firstBytes_congr {m m' : Memory} {n : Nat} (hl : m.length = m'.length)
    (h : ∀ i, i < n → Memory.read m i = Memory.read m' i) : Memory.firstBytes m n = Memory.firstBytes m' n := by
  rcases Nat.lt_or_ge m.length n with hn | hn
  · rw [memory_firstBytes_outside hn, memory_firstBytes_outside (hl ▸ hn)]
  · rw [memory_firstBytes_inside hn, memory_firstBytes_inside (hl ▸ hn)]
    congr 1
    apply List.ext_getElem?
    intro i
    simp only [List.getElem?_take]
    split
    · exact h i ‹_›
    · rfl

/-- A write at or behind the end of the prefix leaves it. -/
theorem memory_firstBytes_write {m : Memory} {n i : Nat} (b : Byte) (h : n ≤ i) :
    Memory.firstBytes (Memory.write m i b) n = Memory.firstBytes m n :=
  memory_firstBytes_congr (memory_write_length m i b) fun j hj => memory_read_write_other m b (by omega)

/-- A write just behind the prefix appends to it. -/
theorem memory_firstBytes_append {m : Memory} {n : Nat} {l : List Byte} (h : Memory.firstBytes m n = some l)
    (hn : n < m.length) (b : Byte) : Memory.firstBytes (Memory.write m n b) (n + 1) = some (l ++ [b]) := by
  rw [memory_firstBytes_inside (Nat.le_of_lt hn)] at h
  cases h
  rw [memory_firstBytes_inside (by simpa using hn), Memory.write, List.take_add_one]
  simp [hn, List.take_set_of_le]

/-- The element `i` of the prefix is the array's. -/
theorem memory_firstBytes_getElem {m : Memory} {n i : Nat} {l : List Byte} (h : Memory.firstBytes m n = some l)
    (hi : i < n) : l[i]? = Memory.read m i := by
  rcases Nat.lt_or_ge m.length n with hn | hn
  · rw [memory_firstBytes_outside hn] at h; cases h
  · rw [memory_firstBytes_inside hn] at h; cases h
    simp [Memory.read, hi]

end Sys2Proof.Machine
end

