-- ==== Sys2Proof/Laws/State.lean ====
section
/-! SUPPORT. What each update of the state leaves in each field, and how the derived output operations reduce to `emit`. -/

namespace Sys2Proof.Machine

@[simp] theorem emit_fs (l : List OutEvent) (s : State) : (emit l s).fs = s.fs := rfl
@[simp] theorem emit_buf (l : List OutEvent) (s : State) : (emit l s).buf = s.buf := rfl
@[simp] theorem emit_len (l : List OutEvent) (s : State) : (emit l s).len = s.len := rfl
@[simp] theorem emit_acc (l : List OutEvent) (s : State) : (emit l s).acc = s.acc := rfl
@[simp] theorem emit_ss (l : List OutEvent) (s : State) : (emit l s).ss = s.ss := rfl
@[simp] theorem emit_pv (l : List OutEvent) (s : State) : (emit l s).pv = s.pv := rfl
@[simp] theorem emit_pbuf (l : List OutEvent) (s : State) : (emit l s).pbuf = s.pbuf := rfl
@[simp] theorem emit_out (l : List OutEvent) (s : State) : (emit l s).out = s.out ++ l := rfl
@[simp] theorem emit_cfg (l : List OutEvent) (s : State) : (emit l s).cfg = s.cfg := rfl
@[simp] theorem emit_input (l : List OutEvent) (s : State) : (emit l s).input = s.input := rfl
@[simp] theorem emit_draws (l : List OutEvent) (s : State) : (emit l s).draws = s.draws := rfl

@[simp] theorem setFs_fs (f : FrameState) (s : State) : (setFs f s).fs = f.code := rfl
@[simp] theorem setFs_buf (f : FrameState) (s : State) : (setFs f s).buf = s.buf := rfl
@[simp] theorem setFs_len (f : FrameState) (s : State) : (setFs f s).len = s.len := rfl
@[simp] theorem setFs_acc (f : FrameState) (s : State) : (setFs f s).acc = s.acc := rfl
@[simp] theorem setFs_ss (f : FrameState) (s : State) : (setFs f s).ss = s.ss := rfl
@[simp] theorem setFs_pv (f : FrameState) (s : State) : (setFs f s).pv = s.pv := rfl
@[simp] theorem setFs_pbuf (f : FrameState) (s : State) : (setFs f s).pbuf = s.pbuf := rfl
@[simp] theorem setFs_out (f : FrameState) (s : State) : (setFs f s).out = s.out := rfl
@[simp] theorem setFs_cfg (f : FrameState) (s : State) : (setFs f s).cfg = s.cfg := rfl
@[simp] theorem setFs_input (f : FrameState) (s : State) : (setFs f s).input = s.input := rfl
@[simp] theorem setFs_draws (f : FrameState) (s : State) : (setFs f s).draws = s.draws := rfl

@[simp] theorem setSs_fs (x : SessionState) (s : State) : (setSs x s).fs = s.fs := rfl
@[simp] theorem setSs_buf (x : SessionState) (s : State) : (setSs x s).buf = s.buf := rfl
@[simp] theorem setSs_len (x : SessionState) (s : State) : (setSs x s).len = s.len := rfl
@[simp] theorem setSs_acc (x : SessionState) (s : State) : (setSs x s).acc = s.acc := rfl
@[simp] theorem setSs_ss (x : SessionState) (s : State) : (setSs x s).ss = x.code := rfl
@[simp] theorem setSs_pv (x : SessionState) (s : State) : (setSs x s).pv = s.pv := rfl
@[simp] theorem setSs_pbuf (x : SessionState) (s : State) : (setSs x s).pbuf = s.pbuf := rfl
@[simp] theorem setSs_out (x : SessionState) (s : State) : (setSs x s).out = s.out := rfl
@[simp] theorem setSs_cfg (x : SessionState) (s : State) : (setSs x s).cfg = s.cfg := rfl
@[simp] theorem setSs_input (x : SessionState) (s : State) : (setSs x s).input = s.input := rfl
@[simp] theorem setSs_draws (x : SessionState) (s : State) : (setSs x s).draws = s.draws := rfl

@[simp] theorem loadPending_fs (p : Payload) (s : State) : (loadPending p s).fs = s.fs := rfl
@[simp] theorem loadPending_buf (p : Payload) (s : State) : (loadPending p s).buf = s.buf := rfl
@[simp] theorem loadPending_len (p : Payload) (s : State) : (loadPending p s).len = s.len := rfl
@[simp] theorem loadPending_acc (p : Payload) (s : State) : (loadPending p s).acc = s.acc := rfl
@[simp] theorem loadPending_ss (p : Payload) (s : State) : (loadPending p s).ss = s.ss := rfl
@[simp] theorem loadPending_pv (p : Payload) (s : State) : (loadPending p s).pv = true := rfl
@[simp] theorem loadPending_pbuf (p : Payload) (s : State) : (loadPending p s).pbuf = p := rfl
@[simp] theorem loadPending_out (p : Payload) (s : State) : (loadPending p s).out = s.out := rfl
@[simp] theorem loadPending_cfg (p : Payload) (s : State) : (loadPending p s).cfg = s.cfg := rfl
@[simp] theorem loadPending_input (p : Payload) (s : State) : (loadPending p s).input = s.input := rfl
@[simp] theorem loadPending_draws (p : Payload) (s : State) : (loadPending p s).draws = s.draws := rfl

@[simp] theorem applyReset_fs (s : State) : (applyReset s).fs = s.cfg.rxResetState.frameState.code := rfl
@[simp] theorem applyReset_buf (s : State) : (applyReset s).buf = freeBytes s.cfg.maxBlock s.draws := rfl
@[simp] theorem applyReset_len (s : State) : (applyReset s).len = 0 := rfl
@[simp] theorem applyReset_acc (s : State) : (applyReset s).acc = 0x00#8 := rfl
@[simp] theorem applyReset_ss (s : State) : (applyReset s).ss = SessionState.handshakeStart.code := rfl
@[simp] theorem applyReset_pv (s : State) : (applyReset s).pv = false := rfl
@[simp] theorem applyReset_pbuf (s : State) : (applyReset s).pbuf = freePayload (s.draws + s.cfg.maxBlock) := rfl
@[simp] theorem applyReset_out (s : State) : (applyReset s).out = s.out := rfl
@[simp] theorem applyReset_cfg (s : State) : (applyReset s).cfg = s.cfg := rfl
@[simp] theorem applyReset_input (s : State) : (applyReset s).input = s.input := rfl
@[simp] theorem applyReset_draws (s : State) : (applyReset s).draws = s.draws + s.cfg.maxBlock + 8 := rfl

@[simp] theorem tx_eq_emit (l : List Byte) (s : State) : tx l s = emit (l.map .txByte) s := rfl
@[simp] theorem transmit_eq_emit (p : List Byte) (s : State) : transmit p s = emit ((encodeBlock p).map .txByte) s := rfl
@[simp] theorem decodeOut_eq_emit (blk : List Byte) (bcc : Option Byte) (s : State) :
    decodeOut blk bcc s = emit [.dec blk bcc] s := rfl
@[simp] theorem ackOut_eq_emit (r : ReqAnswer) (s : State) : ackOut r s = emit [.reqAck r] s := rfl

/-- `Diag(c)` is an emission, of nothing where DIAG_EN is false. -/
@[simp] theorem diag_eq_emit (c : DiagCode) (s : State) : diag c s = emit (diagEvents c s.cfg) s := rfl

theorem emit_emit (l m : List OutEvent) (s : State) : emit m (emit l s) = emit (l ++ m) s := by
  simp [emit]

@[simp] theorem emit_nil (s : State) : emit [] s = s := by
  simp [emit]

end Sys2Proof.Machine
end

