-- ==== Sys2Proof/Laws/Words.lean ====
section
/-! SUPPORT. State codes, kinds and the fields of step words: reading what was put in. -/

namespace Sys2Proof

@[simp] theorem frameState_ofCode_code (f : FrameState) : FrameState.ofCode f.code = some f := by
  cases f <;> rfl

@[simp] theorem sessionState_ofCode_code (x : SessionState) : SessionState.ofCode x.code = some x := by
  cases x <;> rfl

@[simp] theorem kind_ofCode_code (k : Kind) : Kind.ofCode k.code = k := by
  cases k <;> rfl

/-- A legal FS code is the code of the state it names. -/
theorem frameState_code_of_ofCode {c : BitVec 3} {f : FrameState} (h : FrameState.ofCode c = some f) : c = f.code := by
  revert c f; decide

/-- A legal SS code is the code of the state it names. -/
theorem sessionState_code_of_ofCode {c : BitVec 2} {x : SessionState} (h : SessionState.ofCode c = some x) :
    c = x.code := by
  revert c x; decide

theorem kind_code_ofCode (c : BitVec 2) : (Kind.ofCode c).code = c := by
  revert c; decide

@[simp] theorem rwFs_rwWord (fs : BitVec 3) (b : Byte) : rwFs (rwWord fs b) = fs := by
  simp only [rwFs, rwWord]
  ext i hi
  simp only [BitVec.getElem_extractLsb', BitVec.getLsbD_append]
  simp [BitVec.getLsbD_eq_getElem hi]

@[simp] theorem rwByte_rwWord (fs : BitVec 3) (b : Byte) : rwByte (rwWord fs b) = b := by
  simp only [rwByte, rwWord]
  ext i hi
  simp only [BitVec.getElem_extractLsb', BitVec.getLsbD_append]
  simp [hi]

/-- An RW word is its two fields. -/
theorem rwWord_fields (w : BitVec 11) : rwWord (rwFs w) (rwByte w) = w := by
  simp only [rwFs, rwByte, rwWord]
  ext i hi
  simp only [BitVec.getElem_append, BitVec.getElem_extractLsb']
  split
  · simp [BitVec.getLsbD_eq_getElem hi]
  · rename_i h
    rw [Nat.add_sub_cancel' (by omega), BitVec.getLsbD_eq_getElem hi]

@[simp] theorem swSs_swWord (ss k : BitVec 2) (pv : Bool) : swSs (swWord ss k pv) = ss := by
  revert ss k pv; decide

@[simp] theorem swKind_swWord (ss k : BitVec 2) (pv : Bool) : swKind (swWord ss k pv) = k := by
  revert ss k pv; decide

@[simp] theorem swPv_swWord (ss k : BitVec 2) (pv : Bool) : swPv (swWord ss k pv) = pv := by
  revert ss k pv; decide

/-- An SW word is its three fields. -/
theorem swWord_fields (w : BitVec 5) : swWord (swSs w) (swKind w) (swPv w) = w := by
  revert w; decide

/-- The operands of a well-formed delivery make that delivery. -/
@[simp] theorem deliveryOf_operands {d : Delivery} (h : d.wf = true) : deliveryOf d.kind d.blk d.bcc = some d := by
  cases d with
  | stx => rfl
  | dle => rfl
  | nak => rfl
  | data blk bcc =>
    have hb : blk.isEmpty = false := by simpa [Delivery.wf] using h
    simp [deliveryOf, Delivery.kind, Delivery.blk, Delivery.bcc, hb]

/-- What `deliveryOf` makes of operands has those operands and is well formed. -/
theorem deliveryOf_some {k : Kind} {blk : List Byte} {bcc : Option Byte} {d : Delivery}
    (h : deliveryOf k blk bcc = some d) : d.kind = k ∧ d.blk = blk ∧ d.bcc = bcc ∧ d.wf = true := by
  cases k <;> cases bcc <;> simp only [deliveryOf] at h <;> try contradiction
  all_goals
    split at h <;> try contradiction
    rename_i hb
    cases h
    first
      | (subst hb; exact ⟨rfl, rfl, rfl, rfl⟩)
      | (refine ⟨rfl, rfl, rfl, ?_⟩; simpa [Delivery.wf] using hb)

end Sys2Proof
end

