-- ==== Sys2Proof/Laws/Ops.lean ====
section
/-! SUPPORT. For each shared operation that can stop, everything it can do. -/

namespace Sys2Proof.Machine

@[simp] theorem andThen_next (s : State) (f : State → Result) : andThen (.next s) f = f s := rfl
@[simp] theorem andThen_fault (e : Fault) (f : State → Result) : andThen (.fault e) f = .fault e := rfl
@[simp] theorem andThen_refused (e : Refusal) (f : State → Result) : andThen (.refused e) f = .refused e := rfl

theorem bufWrite_inside {i : Nat} {s : State} (h : i < s.buf.length) (b : Byte) :
    bufWrite i b s = .next { s with buf := Memory.write s.buf i b } := by
  simp [bufWrite, h]

theorem bufWrite_outside {i : Nat} {s : State} (h : s.buf.length ≤ i) (b : Byte) :
    bufWrite i b s = .fault (.bufIndex i) := by
  simp [bufWrite, Nat.not_lt.2 h]

/-- Storing a byte at BUF[LEN] where there is such an element (R128, R130). -/
theorem appendByte_room {s : State} (h : s.len < s.buf.length) (b : Byte) :
    appendByte b s =
      .next { s with buf := Memory.write s.buf s.len b, len := s.len + 1, acc := s.acc ^^^ b } := by
  simp [appendByte, bufWrite_inside h]

/-- Where there is none, nothing is written (R50). -/
theorem appendByte_full {s : State} (h : s.buf.length ≤ s.len) (b : Byte) :
    appendByte b s = .fault (.bufIndex s.len) := by
  simp [appendByte, bufWrite_outside h]

theorem room_left_iff (s : State) : room s = .left ↔ s.len < s.cfg.maxBlock := by
  unfold room; split
  · simp_all
  · split
    · simp; omega
    · simp; omega

theorem room_full_iff (s : State) : room s = .full ↔ s.len = s.cfg.maxBlock := by
  unfold room; split
  · simp; omega
  · split <;> simp_all

theorem room_beyond_iff (s : State) : room s = .beyond ↔ s.cfg.maxBlock < s.len := by
  unfold room; split
  · simp; omega
  · split
    · simp; omega
    · simp; omega

@[simp] theorem sumZero_iff (s : State) (b : Byte) : sumZero s b = true ↔ s.acc ^^^ b = 0x00#8 := by
  simp [sumZero]

/-- No reserved code: FS and SS both name a state. -/
theorem reservedCode_none_iff (s : State) :
    reservedCode s = none ↔ (FrameState.ofCode s.fs).isSome = true ∧ (SessionState.ofCode s.ss).isSome = true := by
  unfold reservedCode
  cases FrameState.ofCode s.fs <;> cases SessionState.ofCode s.ss <;> simp

/-- Everything `Deliver` can do: with SS legal exactly one session row runs (R150), and each completes. -/
theorem deliver_cases {x : SessionState} {s : State} (h : SessionState.ofCode s.ss = some x) (d : Delivery) :
    (x = .handshakeStart ∧ d.kind = .stx ∧ deliver d s = execScHssStx s) ∨
    (x = .handshakeStart ∧ d.kind = .dle ∧ deliver d s = execScHssDle s) ∨
    (x = .handshakeStart ∧ (d.kind = .nak ∨ d.kind = .data) ∧ deliver d s = execScHssIgn d s) ∨
    (x = .handshakeConfirm ∧ d.kind = .dle ∧ deliver d s = execScHscDle s) ∨
    (x = .handshakeConfirm ∧ d.kind ≠ .dle ∧ deliver d s = execScHscRej d s) ∨
    (x = .logging ∧ d.kind = .stx ∧ s.pv = true ∧ deliver d s = execScLogStxPend s) ∨
    (x = .logging ∧ d.kind = .stx ∧ s.pv = false ∧ deliver d s = execScLogStxIdle s) ∨
    (x = .logging ∧ d.kind = .dle ∧ s.pv = true ∧ deliver d s = execScLogDleSend s) ∨
    (x = .logging ∧ d.kind = .dle ∧ s.pv = false ∧ deliver d s = execScLogDleNop s) ∨
    (x = .logging ∧ (d.kind = .nak ∨ d.kind = .data) ∧ deliver d s = execScLogData d s) := by
  unfold deliver sessionRow
  rw [h]
  cases x <;> cases hd : d.kind <;> cases hp : s.pv <;> simp [meaningRows]

/-- A reserved SS stops a delivery (R34). -/
theorem deliver_reserved {s : State} (h : SessionState.ofCode s.ss = none) (d : Delivery) :
    deliver d s = .fault .reservedSessionState := by
  simp [deliver, sessionRow, h, faultOf]

end Sys2Proof.Machine
end

