-- ==== Sys2Proof/Laws/PerInstr.lean ====
section
/-! SUPPORT. Family EncodesInRow: the word that `encode` gives a well-formed instruction lies in a row of its own mnemonic in the
machine-readable table (30_encoding.md R91). -/

namespace Sys2Proof.Laws.EncodesInRow

/-- The table has a row of the mnemonic that selects the word. The formats other than RW and SW have no bit pattern (R91). -/
def inRow (mnemonic : String) : StepWord → Bool
  | .rw w room sumZero => rwRows.any fun r => r.mnemonic == mnemonic && r.selects w room sumZero
  | .sw w _ _ => swRows.any fun r => r.mnemonic == mnemonic && r.selects w
  | .txc _ => true
  | .rxt => true
  | .req _ _ _ => true
  | .rst => true

def Statement (i : Instr) : Prop := i.wf = true → inRow i.mnemonic (encode i) = true

theorem rxResyncStx : Statement .rxResyncStx := by unfold Statement; decide
theorem rxResyncDiscard (b : Byte) : Statement (.rxResyncDiscard b) := by unfold Statement; revert b; decide
theorem rxIdleStx : Statement .rxIdleStx := by unfold Statement; decide
theorem rxIdleDle : Statement .rxIdleDle := by unfold Statement; decide
theorem rxIdleNak : Statement .rxIdleNak := by unfold Statement; decide
theorem rxIdleStart (b : Byte) : Statement (.rxIdleStart b) := by unfold Statement; revert b; decide
theorem rxCollDle : Statement .rxCollDle := by unfold Statement; decide
theorem rxCollAppend (b : Byte) : Statement (.rxCollAppend b) := by unfold Statement; revert b; decide
theorem rxCollOvf (b : Byte) : Statement (.rxCollOvf b) := by unfold Statement; revert b; decide
theorem rxDlesLit : Statement .rxDlesLit := by unfold Statement; decide
theorem rxDlesOvf : Statement .rxDlesOvf := by unfold Statement; decide
theorem rxDlesEtx : Statement .rxDlesEtx := by unfold Statement; decide
theorem rxDlesErr (b : Byte) : Statement (.rxDlesErr b) := by unfold Statement; revert b; decide
theorem rxBccOk (b : Byte) : Statement (.rxBccOk b) := by unfold Statement; revert b; decide
theorem rxBccBad (b : Byte) : Statement (.rxBccBad b) := by unfold Statement; revert b; decide
theorem scHssStx : Statement .scHssStx := by unfold Statement; decide
theorem scHssDle : Statement .scHssDle := by unfold Statement; decide
theorem scHssIgn (d : Delivery) : Statement (.scHssIgn d) := by
  intro h
  cases d with
  | stx => simp [Instr.wf, Delivery.kind] at h
  | dle => simp [Instr.wf, Delivery.kind] at h
  | nak => rfl
  | data blk bcc =>
    simp only [inRow, Instr.mnemonic, encode, encodeSw, Delivery.kind]
    decide
theorem scHscDle : Statement .scHscDle := by unfold Statement; decide
theorem scHscRej (d : Delivery) : Statement (.scHscRej d) := by
  intro h
  cases d with
  | stx => rfl
  | dle => simp [Instr.wf, Delivery.kind] at h
  | nak => rfl
  | data blk bcc =>
    simp only [inRow, Instr.mnemonic, encode, encodeSw, Delivery.kind]
    decide
theorem scLogStxPend : Statement .scLogStxPend := by unfold Statement; decide
theorem scLogStxIdle : Statement .scLogStxIdle := by unfold Statement; decide
theorem scLogDleSend : Statement .scLogDleSend := by unfold Statement; decide
theorem scLogDleNop : Statement .scLogDleNop := by unfold Statement; decide
theorem scLogData (d : Delivery) : Statement (.scLogData d) := by
  intro h
  cases d with
  | stx => simp [Instr.wf, Delivery.kind] at h
  | dle => simp [Instr.wf, Delivery.kind] at h
  | nak => rfl
  | data blk bcc =>
    simp only [inRow, Instr.mnemonic, encode, encodeSw, Delivery.kind]
    decide
theorem txNone : Statement .txNone := fun _ => rfl
theorem txCtrl (c : Byte) : Statement (.txCtrl c) := fun _ => rfl
theorem txFrame (p : List Byte) : Statement (.txFrame p) := fun _ => rfl
theorem evRxt : Statement .evRxt := fun _ => rfl
theorem evReqAccept (p : Payload) : Statement (.evReqAccept p) := fun _ => rfl
theorem evReqBusy (p : Payload) : Statement (.evReqBusy p) := fun _ => rfl
theorem evReqOverwrite (p : Payload) : Statement (.evReqOverwrite p) := fun _ => rfl
theorem evRst : Statement .evRst := fun _ => rfl

end Sys2Proof.Laws.EncodesInRow
end

