-- ==== Sys2Proof/Laws/Step.lean ====
section
/-! SUPPORT. Everything a delivery and a step can do, said once: claims about all steps are proved from `step_effect`. -/

namespace Sys2Proof.Machine

/-- Neither the events still to come nor OUT select a row. -/
@[simp] theorem stepWord_input (s : State) (l : List Event) (e : Event) :
    stepWord { s with input := l } e = stepWord s e := by
  cases e <;> rfl

@[simp] theorem rowOf_input (s : State) (l : List Event) (e : Event) : rowOf { s with input := l } e = rowOf s e := by
  simp [rowOf]

theorem step_no_event {s : State} (hc : reservedCode s = none) (h : s.input = []) : step s = .next s := by
  simp [step, hc, takeEvent, h]

theorem step_event {s : State} {e : Event} {rest : List Event} {i : Instr} (hc : reservedCode s = none)
    (h : s.input = e :: rest) (hi : rowOf s e = .ok i) : step s = exec i { s with input := rest } := by
  simp [step, hc, takeEvent, h, hi]

theorem step_no_row {s : State} {e : Event} {rest : List Event} {err : DecodeError} (hc : reservedCode s = none)
    (h : s.input = e :: rest) (hi : rowOf s e = .error err) : step s = .fault (faultOf err) := by
  simp [step, hc, takeEvent, h, hi]

/-- If a step answers a next state, FS and SS are legal, and either no event was waiting and nothing changed, or the row of
the next event ran. -/
theorem step_next_cases {s t : State} (h : step s = .next t) :
    reservedCode s = none ∧
      ((s.input = [] ∧ t = s) ∨
        ∃ e rest i, s.input = e :: rest ∧ rowOf s e = .ok i ∧ exec i { s with input := rest } = .next t) := by
  cases hc : reservedCode s with
  | some f => simp [step, hc] at h
  | none =>
    refine ⟨rfl, ?_⟩
    cases hin : s.input with
    | nil => rw [step_no_event hc hin] at h; cases h; exact .inl ⟨rfl, rfl⟩
    | cons e rest =>
      cases hi : rowOf s e with
      | error err => rw [step_no_row hc hin hi] at h; cases h
      | ok i => rw [step_event hc hin hi] at h; exact .inr ⟨e, rest, i, rfl, hi, h⟩

/-! ### What a delivery can do -/

/-- The state after delivering `d` in `u`: one constructor for each session row (R150). -/
inductive Delivered (u : State) : Delivery → State → Prop where
  | hssStx (h : u.ss = SessionState.handshakeStart.code) : Delivered u .stx (emit [.txByte STX] u)
  | hssDle (h : u.ss = SessionState.handshakeStart.code) :
      Delivered u .dle (setSs .handshakeConfirm (emit ((encodeBlock u.cfg.logCmd).map .txByte) u))
  | hssIgn (d : Delivery) (h : u.ss = SessionState.handshakeStart.code) (hd : d.kind = .nak ∨ d.kind = .data) :
      Delivered u d u
  | hscDle (h : u.ss = SessionState.handshakeConfirm.code) : Delivered u .dle (setSs .logging u)
  | hscRej (d : Delivery) (h : u.ss = SessionState.handshakeConfirm.code) (hd : d.kind ≠ .dle) :
      Delivered u d (emit (diagEvents .handshakeRejection u.cfg) (setSs .handshakeStart u))
  | logStxPend (h : u.ss = SessionState.logging.code) (hp : u.pv = true) : Delivered u .stx (emit [.txByte STX] u)
  | logStxIdle (h : u.ss = SessionState.logging.code) (hp : u.pv = false) : Delivered u .stx (emit [.txByte DLE] u)
  | logDleSend (h : u.ss = SessionState.logging.code) (hp : u.pv = true) :
      Delivered u .dle
        (setSs .handshakeStart { emit ((frame u.pbuf.toList).map .txByte) u with pv := false })
  | logDleNop (h : u.ss = SessionState.logging.code) (hp : u.pv = false) :
      Delivered u .dle (emit (diagEvents .unexpectedDle u.cfg) u)
  | logData (d : Delivery) (h : u.ss = SessionState.logging.code) (hd : d.kind = .nak ∨ d.kind = .data) :
      Delivered u d (emit [.dec d.blk d.bcc, .txByte DLE] u)

@[simp] theorem encodeBlock_stx : encodeBlock [STX] = [STX] := by decide
@[simp] theorem encodeBlock_dle : encodeBlock [DLE] = [DLE] := by decide
@[simp] theorem encodeBlock_nak : encodeBlock [NAK] = [NAK] := by decide

/-- With SS legal a delivery completes as one of the session rows. -/
theorem deliver_delivered {u : State} (h : (SessionState.ofCode u.ss).isSome = true) (d : Delivery) :
    ∃ t, deliver d u = .next t ∧ Delivered u d t := by
  obtain ⟨x, hx⟩ := Option.isSome_iff_exists.1 h
  have hss := sessionState_code_of_ofCode hx
  rcases deliver_cases hx d with ⟨rfl, hk, he⟩ | ⟨rfl, hk, he⟩ | ⟨rfl, hk, he⟩ | ⟨rfl, hk, he⟩ | ⟨rfl, hk, he⟩ |
    ⟨rfl, hk, hp, he⟩ | ⟨rfl, hk, hp, he⟩ | ⟨rfl, hk, hp, he⟩ | ⟨rfl, hk, hp, he⟩ | ⟨rfl, hk, he⟩
  · cases d <;> cases hk
    exact ⟨_, he, .hssStx hss⟩
  · cases d <;> cases hk
    exact ⟨_, he, .hssDle hss⟩
  · exact ⟨_, he, .hssIgn d hss hk⟩
  · cases d <;> cases hk
    exact ⟨_, he, .hscDle hss⟩
  · exact ⟨_, he, .hscRej d hss hk⟩
  · cases d <;> cases hk
    exact ⟨_, he, .logStxPend hss hp⟩
  · cases d <;> cases hk
    exact ⟨_, he, .logStxIdle hss hp⟩
  · cases d <;> cases hk
    refine ⟨_, he, ?_⟩
    rw [transmit_eq_emit, pendingBytes, encodeBlock_payload]
    exact .logDleSend hss hp
  · cases d <;> cases hk
    exact ⟨_, he, .logDleNop hss hp⟩
  · refine ⟨_, he, ?_⟩
    rw [transmit_eq_emit, decodeOut_eq_emit, emit_emit, encodeBlock_dle]
    exact .logData d hss hk

/-- If a delivery answers a next state, it is one of the session rows'. -/
theorem deliver_next {u t : State} {d : Delivery} (h : deliver d u = .next t) : Delivered u d t := by
  cases hs : SessionState.ofCode u.ss with
  | none => rw [deliver_reserved hs] at h; cases h
  | some x =>
    obtain ⟨t', ht, hd⟩ := deliver_delivered (u := u) (by simp [hs]) d
    rw [ht] at h
    cases h
    exact hd

/-! ### What a step can do -/

/-- The state after one step of `s`: `u` is `s` with its event consumed. One constructor for each receiver row and event row,
and one for no event. -/
inductive StepEffect (s : State) : State → Prop where
  | noEvent (hin : s.input = []) : StepEffect s s
  | resyncStx {rest : List Event} {t : State} (hin : s.input = .rxb STX :: rest) (hf : s.fs = FrameState.resync.code)
      (hd : Delivered (setFs .idle { s with input := rest }) .stx t) : StepEffect s t
  | discard {rest : List Event} (b : Byte) (hin : s.input = .rxb b :: rest) (hf : s.fs = FrameState.resync.code)
      (hb : b ≠ STX) : StepEffect s { s with input := rest }
  | idleStx {rest : List Event} {t : State} (hin : s.input = .rxb STX :: rest) (hf : s.fs = FrameState.idle.code)
      (hd : Delivered { s with input := rest } .stx t) : StepEffect s t
  | idleDle {rest : List Event} {t : State} (hin : s.input = .rxb DLE :: rest) (hf : s.fs = FrameState.idle.code)
      (hd : Delivered { s with input := rest } .dle t) : StepEffect s t
  | idleNak {rest : List Event} {t : State} (hin : s.input = .rxb NAK :: rest) (hf : s.fs = FrameState.idle.code)
      (hd : Delivered { s with input := rest } .nak t) : StepEffect s t
  | start {rest : List Event} (b : Byte) (hin : s.input = .rxb b :: rest) (hf : s.fs = FrameState.idle.code)
      (hb : b ∉ CTRL) (hm : 0 < s.buf.length) :
      StepEffect s { s with input := rest, buf := Memory.write s.buf 0 b, len := 1, acc := b,
                            fs := FrameState.collecting.code }
  | collDle {rest : List Event} (hin : s.input = .rxb DLE :: rest) (hf : s.fs = FrameState.collecting.code) :
      StepEffect s { s with input := rest, acc := s.acc ^^^ DLE, fs := FrameState.dleSeen.code }
  | append {rest : List Event} (b : Byte) (hin : s.input = .rxb b :: rest) (hf : s.fs = FrameState.collecting.code)
      (hb : b ≠ DLE) (hm : s.len < s.cfg.maxBlock) (he : s.len < s.buf.length) :
      StepEffect s { s with input := rest, buf := Memory.write s.buf s.len b, len := s.len + 1, acc := s.acc ^^^ b }
  | collOvf {rest : List Event} (b : Byte) (hin : s.input = .rxb b :: rest) (hf : s.fs = FrameState.collecting.code)
      (hb : b ≠ DLE) (hm : s.len = s.cfg.maxBlock) :
      StepEffect s (abandonBlock .oversizedBlock { s with input := rest })
  | lit {rest : List Event} (hin : s.input = .rxb DLE :: rest) (hf : s.fs = FrameState.dleSeen.code)
      (hm : s.len < s.cfg.maxBlock) (he : s.len < s.buf.length) :
      StepEffect s { s with input := rest, buf := Memory.write s.buf s.len DLE, len := s.len + 1, acc := s.acc ^^^ DLE,
                            fs := FrameState.collecting.code }
  | dlesOvf {rest : List Event} (hin : s.input = .rxb DLE :: rest) (hf : s.fs = FrameState.dleSeen.code)
      (hm : s.len = s.cfg.maxBlock) : StepEffect s (abandonBlock .oversizedBlock { s with input := rest })
  | etx {rest : List Event} (hin : s.input = .rxb ETX :: rest) (hf : s.fs = FrameState.dleSeen.code) :
      StepEffect s { s with input := rest, acc := s.acc ^^^ ETX, fs := FrameState.verifyBcc.code }
  | dlesErr {rest : List Event} (b : Byte) (hin : s.input = .rxb b :: rest) (hf : s.fs = FrameState.dleSeen.code)
      (hd : b ≠ DLE) (he : b ≠ ETX) : StepEffect s (abandonBlock .unexpectedAfterEscape { s with input := rest })
  | bccOk {rest : List Event} {t : State} (b : Byte) (blk : List Byte) (hin : s.input = .rxb b :: rest)
      (hf : s.fs = FrameState.verifyBcc.code) (hz : s.acc ^^^ b = 0x00#8) (hh : heldBlock s = some blk)
      (hd : Delivered { s with input := rest, acc := s.acc ^^^ b, len := 0, fs := FrameState.idle.code }
        (.data blk b) t) : StepEffect s t
  | bccBad {rest : List Event} (b : Byte) (hin : s.input = .rxb b :: rest) (hf : s.fs = FrameState.verifyBcc.code)
      (hz : s.acc ^^^ b ≠ 0x00#8) :
      StepEffect s (emit (diagEvents .checksumMismatch s.cfg ++ [.txByte NAK])
        { s with input := rest, acc := s.acc ^^^ b, len := 0, fs := FrameState.idle.code })
  | rxt {rest : List Event} (hin : s.input = .rxt :: rest) : StepEffect s { s with input := rest }
  | reqAccept {rest : List Event} (p : Payload) (hin : s.input = .req p :: rest) (hp : s.pv = false) :
      StepEffect s (emit [.reqAck .accepted] { s with input := rest, pbuf := p, pv := true })
  | reqBusy {rest : List Event} (p : Payload) (hin : s.input = .req p :: rest) (hp : s.pv = true)
      (hq : s.cfg.pendPolicy = .reject) :
      StepEffect s (emit ([.reqAck .busy] ++ diagEvents .slotBusy s.cfg) { s with input := rest })
  | reqOverwrite {rest : List Event} (p : Payload) (hin : s.input = .req p :: rest) (hp : s.pv = true)
      (hq : s.cfg.pendPolicy = .overwrite) :
      StepEffect s (emit [.reqAck .accepted] { s with input := rest, pbuf := p, pv := true })
  | rst {rest : List Event} (hin : s.input = .rst :: rest) : StepEffect s (applyReset { s with input := rest })

theorem decode_receiverWord (s : State) (b : Byte) :
    decode (receiverWord s b) = receiverRow s.fs b (room s) (sumZero s b) := by
  simp [decode, receiverWord]

/-- The rows of a received byte, when they answer a next state. -/
theorem rxb_effect {s t : State} {b : Byte} {rest : List Event} {i : Instr} (hin : s.input = .rxb b :: rest)
    (hi : rowOf s (.rxb b) = .ok i) (h : exec i { s with input := rest } = .next t) : StepEffect s t := by
  rw [rowOf, stepWord, decode_receiverWord] at hi
  unfold receiverRow at hi
  cases hf : FrameState.ofCode s.fs with
  | none => simp [hf] at hi
  | some f =>
    have hc := frameState_code_of_ofCode hf
    rw [hf] at hi
    cases f with
    | resync =>
      simp only at hi
      split at hi
      · rename_i hb; cases hi; subst hb
        exact .resyncStx hin hc (deliver_next h)
      · rename_i hb; cases hi; cases h
        exact .discard b hin hc hb
    | idle =>
      simp only at hi
      split at hi
      · rename_i hb; cases hi; subst hb
        exact .idleStx hin hc (deliver_next h)
      · rename_i h1
        split at hi
        · rename_i hb; cases hi; subst hb
          exact .idleDle hin hc (deliver_next h)
        · rename_i h2
          split at hi
          · rename_i hb; cases hi; subst hb
            exact .idleNak hin hc (deliver_next h)
          · rename_i h3; cases hi
            have hm : 0 < s.buf.length := by
              rcases Nat.eq_zero_or_pos s.buf.length with h0 | h0
              · simp [exec, execRxIdleStart, bufWrite_outside, h0] at h
              · exact h0
            have hw := bufWrite_inside (s := { s with input := rest }) hm b
            simp only [exec, execRxIdleStart, hw, andThen_next] at h
            cases h
            exact .start b hin hc (by simp [h1, h2, h3]) hm
    | collecting =>
      simp only at hi
      split at hi
      · rename_i hb; cases hi; subst hb; cases h
        exact .collDle hin hc
      · rename_i hb
        split at hi
        · rename_i hr; cases hi
          have hm := (room_left_iff s).1 hr
          have he : s.len < s.buf.length := by
            rcases Nat.lt_or_ge s.len s.buf.length with he | he
            · exact he
            · simp only [exec, execRxCollAppend, appendByte_full (s := { s with input := rest }) he b] at h
              cases h
          simp only [exec, execRxCollAppend, appendByte_room (s := { s with input := rest }) he b] at h
          cases h
          exact .append b hin hc hb hm he
        · rename_i hr; cases hi; cases h
          exact .collOvf b hin hc hb ((room_full_iff s).1 hr)
        · cases hi
    | dleSeen =>
      simp only at hi
      split at hi
      · rename_i hb; subst hb
        split at hi
        · rename_i hr; cases hi
          have hm := (room_left_iff s).1 hr
          have he : s.len < s.buf.length := by
            rcases Nat.lt_or_ge s.len s.buf.length with he | he
            · exact he
            · simp only [exec, execRxDlesLit, appendByte_full (s := { s with input := rest }) he DLE, andThen_fault] at h
              cases h
          simp only [exec, execRxDlesLit, appendByte_room (s := { s with input := rest }) he DLE, andThen_next] at h
          cases h
          exact .lit hin hc hm he
        · rename_i hr; cases hi; cases h
          exact .dlesOvf hin hc ((room_full_iff s).1 hr)
        · cases hi
      · rename_i h1
        split at hi
        · rename_i hb; cases hi; subst hb; cases h
          exact .etx hin hc
        · rename_i h2; cases hi; cases h
          exact .dlesErr b hin hc h1 h2
    | verifyBcc =>
      simp only at hi
      split at hi
      · rename_i hz; cases hi
        simp only [exec, execRxBccOk] at h
        split at h
        · cases h
        · rename_i blk hh
          exact .bccOk b blk hin hc ((sumZero_iff s b).1 hz) hh (deliver_next h)
      · rename_i hz; cases hi
        simp only [exec, execRxBccBad, transmit_eq_emit, diag_eq_emit, emit_emit, encodeBlock_nak] at h
        cases h
        exact .bccBad b hin hc (fun he => hz ((sumZero_iff s b).2 he))

/-- Every next state of a step is one of `StepEffect`'s. -/
theorem step_effect {s t : State} (h : step s = .next t) : StepEffect s t := by
  obtain ⟨_, ⟨hin, rfl⟩ | ⟨e, rest, i, hin, hi, hx⟩⟩ := step_next_cases h
  · exact .noEvent hin
  · cases e with
    | rxb b => exact rxb_effect hin hi hx
    | rxt =>
      cases hi; cases hx
      exact .rxt hin
    | req p =>
      simp only [rowOf, stepWord, decode, Except.ok.injEq] at hi
      cases hp : s.pv with
      | false =>
        have hr : i = .evReqAccept p := by simpa [requestRow, hp] using hi.symm
        subst hr; cases hx
        exact .reqAccept p hin hp
      | true =>
        cases hq : s.cfg.pendPolicy with
        | reject =>
          have hr : i = .evReqBusy p := by simpa [requestRow, hp, hq] using hi.symm
          subst hr
          simp only [exec, execEvReqBusy, ackOut_eq_emit, diag_eq_emit, emit_emit, emit_cfg] at hx
          cases hx
          exact .reqBusy p hin hp hq
        | overwrite =>
          have hr : i = .evReqOverwrite p := by simpa [requestRow, hp, hq] using hi.symm
          subst hr; cases hx
          exact .reqOverwrite p hin hp hq
    | rst =>
      cases hi; cases hx
      exact .rst hin

end Sys2Proof.Machine
end

