-- ==== Sys2Proof/Laws/Run.lean ====
section
/-! SUPPORT. Runs of several steps, one step at a time, and the row that a received byte runs. -/

namespace Sys2Proof.Machine

@[simp] theorem runSteps_zero (s : State) : runSteps 0 s = .next s := rfl

/-- The first step of a run. -/
theorem runSteps_next {n : Nat} {s t : State} (h : step s = .next t) : runSteps (n + 1) s = runSteps n t := by
  simp [runSteps, h]

@[simp] theorem runSteps_one (s : State) : runSteps 1 s = step s := by
  simp only [runSteps]; cases step s <;> rfl

/-- With legal codes, a received byte runs the row that `receiverRow` gives. -/
theorem step_received {s : State} {f : FrameState} {b : Byte} {rest : List Event} {i : Instr} (hf : s.fs = f.code)
    (hs : (SessionState.ofCode s.ss).isSome = true) (hin : s.input = .rxb b :: rest)
    (hr : receiverRow f.code b (room s) (sumZero s b) = .ok i) : step s = exec i { s with input := rest } := by
  refine step_event ((reservedCode_none_iff s).2 ⟨by simp [hf], hs⟩) hin ?_
  rw [rowOf, stepWord, decode_receiverWord, hf, hr]

/-- `withBytes` touches nothing but the events still to come. -/
@[simp] theorem withBytes_input (l : List Byte) (s : State) : (withBytes l s).input = l.map .rxb ++ s.input := rfl

end Sys2Proof.Machine
end

