-- ==== Sys2Proof/Tests/Slice0.lean ====
section
/-! SUPPORT. Tests. Expected values come from the spec: the words from 30_encoding.md R86, the steps from the vectors V-… of
95_test_vectors.md. A `witness_…` shows that the hypotheses of the obligation of that name can be met, clause by clause. -/

namespace Sys2Proof.Tests

open Sys2Proof Sys2Proof.Machine

/-! ### WellFormed: an ill-formed term for each check -/

theorem test_wf_refuses_bytes_of_other_receiver_rows :
    (Instr.rxResyncDiscard 0x02#8).wf = false ∧ (Instr.rxIdleStart 0x02#8).wf = false ∧
    (Instr.rxIdleStart 0x10#8).wf = false ∧ (Instr.rxIdleStart 0x15#8).wf = false ∧
    (Instr.rxCollAppend 0x10#8).wf = false ∧ (Instr.rxCollOvf 0x10#8).wf = false ∧
    (Instr.rxDlesErr 0x10#8).wf = false ∧ (Instr.rxDlesErr 0x03#8).wf = false := by decide

theorem test_wf_refuses_kinds_of_other_session_rows :
    (Instr.scHssIgn .stx).wf = false ∧ (Instr.scHssIgn .dle).wf = false ∧ (Instr.scHscRej .dle).wf = false ∧
    (Instr.scLogData .stx).wf = false ∧ (Instr.scLogData .dle).wf = false := by decide

theorem test_wf_refuses_empty_blocks :
    (Delivery.data [] 0x00#8).wf = false ∧ (Instr.scHssIgn (.data [] 0x00#8)).wf = false ∧
    (Instr.scHscRej (.data [] 0x00#8)).wf = false ∧ (Instr.scLogData (.data [] 0x00#8)).wf = false := by decide

theorem test_wf_refuses_payloads_of_other_encoder_rows :
    (Instr.txCtrl 0x03#8).wf = false ∧ (Instr.txFrame []).wf = false ∧ (Instr.txFrame [0x15#8]).wf = false := by decide

theorem test_wf_accepts_the_neighbours :
    (Instr.rxIdleStart 0x03#8).wf = true ∧ (Instr.rxCollAppend 0x02#8).wf = true ∧ (Instr.rxDlesErr 0x02#8).wf = true ∧
    (Instr.scHscRej .stx).wf = true ∧ (Instr.scLogData .nak).wf = true ∧ (Instr.txCtrl 0x10#8).wf = true ∧
    (Instr.txFrame [0x03#8]).wf = true ∧ (Instr.txFrame [0x02#8, 0x05#8]).wf = true := by decide

/-! ### Decode: a written-out word for each constructor (R80 to R83, R86) -/

theorem test_decode_resync_and_idle_words :
    decode (.rw 0b00000000010#11 .left false) = .ok .rxResyncStx ∧
    decode (.rw 0b00000010000#11 .left false) = .ok (.rxResyncDiscard 0x10#8) ∧
    decode (.rw 0b00100000010#11 .left false) = .ok .rxIdleStx ∧
    decode (.rw 0b00100010000#11 .left false) = .ok .rxIdleDle ∧
    decode (.rw 0b00100010101#11 .left false) = .ok .rxIdleNak ∧
    decode (.rw 0b00110000000#11 .left false) = .ok (.rxIdleStart 0x80#8) := by decide

theorem test_decode_collecting_words :
    decode (.rw 0b01000010000#11 .full false) = .ok .rxCollDle ∧
    decode (.rw 0b01000000010#11 .left false) = .ok (.rxCollAppend 0x02#8) ∧
    decode (.rw 0b01000110100#11 .full false) = .ok (.rxCollOvf 0x34#8) := by decide

theorem test_decode_dle_seen_and_verify_words :
    decode (.rw 0b01100010000#11 .left false) = .ok .rxDlesLit ∧
    decode (.rw 0b01100010000#11 .full false) = .ok .rxDlesOvf ∧
    decode (.rw 0b01100000011#11 .full false) = .ok .rxDlesEtx ∧
    decode (.rw 0b01100000111#11 .full false) = .ok (.rxDlesErr 0x07#8) ∧
    decode (.rw 0b10010111001#11 .left true) = .ok (.rxBccOk 0xB9#8) ∧
    decode (.rw 0b10010111000#11 .left false) = .ok (.rxBccBad 0xB8#8) := by decide

theorem test_decode_handshake_words :
    decode (.sw 0b00001#5 [0x02#8] none) = .ok .scHssStx ∧
    decode (.sw 0b00010#5 [0x10#8] none) = .ok .scHssDle ∧
    decode (.sw 0b00100#5 [0x15#8] none) = .ok (.scHssIgn .nak) ∧
    decode (.sw 0b00111#5 [0x05#8] (some 0x16#8)) = .ok (.scHssIgn (.data [0x05#8] 0x16#8)) ∧
    decode (.sw 0b01010#5 [0x10#8] none) = .ok .scHscDle ∧
    decode (.sw 0b01001#5 [0x02#8] none) = .ok (.scHscRej .stx) := by decide

theorem test_decode_logging_words :
    decode (.sw 0b10001#5 [0x02#8] none) = .ok .scLogStxPend ∧
    decode (.sw 0b10000#5 [0x02#8] none) = .ok .scLogStxIdle ∧
    decode (.sw 0b10011#5 [0x10#8] none) = .ok .scLogDleSend ∧
    decode (.sw 0b10010#5 [0x10#8] none) = .ok .scLogDleNop ∧
    decode (.sw 0b10100#5 [0x15#8] none) = .ok (.scLogData .nak) ∧
    decode (.sw 0b10111#5 [0x05#8] (some 0x16#8)) = .ok (.scLogData (.data [0x05#8] 0x16#8)) := by decide

/-- V-H-02: `07 00 65 65 65 65 10 65`. -/
def command : Payload := #v[0x07#8, 0x00#8, 0x65#8, 0x65#8, 0x65#8, 0x65#8, 0x10#8, 0x65#8]

/-- V-H-03: `08 00 65 65 65 65 02 65`. -/
def otherCommand : Payload := #v[0x08#8, 0x00#8, 0x65#8, 0x65#8, 0x65#8, 0x65#8, 0x02#8, 0x65#8]

theorem test_decode_encoder_cases_and_events :
    decode (.txc []) = .ok .txNone ∧
    decode (.txc [0x15#8]) = .ok (.txCtrl 0x15#8) ∧
    decode (.txc [0x03#8]) = .ok (.txFrame [0x03#8]) ∧
    decode (.txc [0x10#8, 0x10#8]) = .ok (.txFrame [0x10#8, 0x10#8]) ∧
    decode .rxt = .ok .evRxt ∧
    decode (.req command false .reject) = .ok (.evReqAccept command) ∧
    decode (.req command true .reject) = .ok (.evReqBusy command) ∧
    decode (.req command true .overwrite) = .ok (.evReqOverwrite command) ∧
    decode .rst = .ok .evRst := by decide

/-- R85, and the words whose guards or operands fit no row. -/
theorem test_decode_rejects_by_name :
    decode (.rw 0b10100000010#11 .left true) = .error .reservedFrameState ∧
    decode (.rw 0b11100010000#11 .left true) = .error .reservedFrameState ∧
    decode (.sw 0b11000#5 [0x02#8] none) = .error .reservedSessionState ∧
    decode (.rw 0b01000110100#11 .beyond false) = .error .lenOverMax ∧
    decode (.rw 0b01100010000#11 .beyond false) = .error .lenOverMax ∧
    decode (.sw 0b00000#5 [0x10#8] none) = .error .operandMismatch ∧
    decode (.sw 0b00110#5 [] (some 0x00#8)) = .error .operandMismatch ∧
    decode (.sw 0b00110#5 [0x05#8] none) = .error .operandMismatch := by decide

/-! ### Bare table words -/

theorem test_table_words_decode :
    decodeTableWord 16 0x115 = some .rxIdleNak ∧ decodeTableWord 16 0x303 = some .rxDlesEtx ∧
    decodeTableWord 16 0x413 = some (.rxBccOk 0x13#8) ∧ decodeTableWord 16 0x400 = some (.rxBccBad 0x00#8) ∧
    decodeTableWord 8 0x13 = some .scLogDleSend ∧ decodeTableWord 8 0x16 = some (.scLogData (.data [0x00#8] 0x13#8)) ∧
    decodeTableWord 16 0x500 = none ∧ decodeTableWord 8 0x18 = none ∧ decodeTableWord 0 0 = none := by decide

/-- The placed word runs as the next step: the BCC of `[0x00]` is accepted, a bad escape gives the block up, and a DLE in
LOGGING with a command pending clears PV. -/
theorem test_placed_words_run :
    (nextState (step (State.reset.withFetchWord 16 0x413))).map (fun t => (t.fs, t.len, t.acc)) =
      some (0b001#3, 0, 0x00#8) ∧
    (nextState (step (State.reset.withFetchWord 16 0x307))).map (fun t => t.out) =
      some [.diag .unexpectedAfterEscape] ∧
    (nextState (step (State.reset.withFetchWord 8 0x13))).map (fun t => (t.ss, t.pv)) = some (0b00#2, false) := by decide

/-! ### One step of each instruction -/

/-- A state `FS/SS/PV` of 95_test_vectors.md under the default parameters. -/
def at' (fs : FrameState) (ss : SessionState) (pv : Bool) : State :=
  { State.reset with fs := fs.code, ss := ss.code, pv := pv, pbuf := command }

/-- The state with a block held in its 20 bytes of BUF. -/
def holding (blk : List Byte) (acc : Byte) (s : State) : State :=
  { s with buf := blk ++ List.replicate (20 - blk.length) 0x00#8, len := blk.length, acc := acc }

/-- 20 bytes `20 .. 33` held (V-C-14), the most that fit. -/
def full (s : State) : State :=
  holding ((List.range 20).map fun i => BitVec.ofNat 8 (0x20 + i)) 0x00#8 s

/-- The state after one event. -/
def after (s : State) (e : Event) : Option State := nextState (step { s with input := [e] })

/-- FS, SS and PV with the new output. -/
def shown (t : State) : BitVec 3 × BitVec 2 × Bool × List OutEvent := (t.fs, t.ss, t.pv, t.out)

-- receiver
theorem test_resync_stx_V_R_01 :
    (after (at' .resync .handshakeStart false) (.rxb 0x02#8)).map shown =
      some (0b001#3, 0b00#2, false, [.txByte 0x02#8]) := by decide
theorem test_resync_discard_V_R_03 :
    (after (at' .resync .logging true) (.rxb 0x10#8)).map shown = some (0b000#3, 0b10#2, true, []) := by decide
theorem test_idle_stx_V_R_04 :
    (after (at' .idle .logging false) (.rxb 0x02#8)).map shown =
      some (0b001#3, 0b10#2, false, [.txByte 0x10#8]) := by decide
theorem test_idle_dle_V_R_05 :
    (after (at' .idle .handshakeStart false) (.rxb 0x10#8)).map shown =
      some (0b001#3, 0b01#2, false, [.txByte 0xEE#8, .txByte 0x00#8, .txByte 0x00#8, .txByte 0x10#8, .txByte 0x03#8,
        .txByte 0xFD#8]) := by decide
theorem test_idle_nak_V_R_06 :
    (after (at' .idle .handshakeStart false) (.rxb 0x15#8)).map shown = some (0b001#3, 0b00#2, false, []) := by decide
theorem test_idle_start_V_R_08 :
    (after (at' .idle .logging false) (.rxb 0x03#8)).map (fun t => (t.fs, heldBlock t, t.acc)) =
      some (0b010#3, some [0x03#8], 0x03#8) := by decide
theorem test_coll_dle_V_R_09 :
    (after (holding [0x80#8, 0x02#8, 0x28#8] 0xAA#8 (at' .collecting .logging false)) (.rxb 0x10#8)).map
      (fun t => (t.fs, t.len, t.acc)) = some (0b011#3, 3, 0xBA#8) := by decide
theorem test_coll_append_V_R_11 :
    (after (holding [0x80#8] 0x80#8 (at' .collecting .logging false)) (.rxb 0x02#8)).map
      (fun t => (t.fs, heldBlock t, t.acc)) = some (0b010#3, some [0x80#8, 0x02#8], 0x82#8) := by decide
theorem test_coll_append_last_V_R_13 :
    (after (holding (List.replicate 19 0x20#8) 0x20#8 (at' .collecting .logging false)) (.rxb 0x33#8)).map
      (fun t => (t.fs, t.len, t.out)) = some (0b010#3, 20, []) := by decide
theorem test_coll_ovf_V_R_15 :
    (after (full (at' .collecting .logging false)) (.rxb 0x02#8)).map (fun t => (t.fs, t.len, t.out)) =
      some (0b000#3, 0, [.diag .oversizedBlock]) := by decide
theorem test_dles_lit_V_R_10 :
    (after (holding [0x81#8] 0x91#8 (at' .dleSeen .logging false)) (.rxb 0x10#8)).map
      (fun t => (t.fs, heldBlock t, t.acc)) = some (0b010#3, some [0x81#8, 0x10#8], 0x81#8) := by decide
theorem test_dles_ovf_V_R_16 :
    (after (full (at' .dleSeen .logging false)) (.rxb 0x10#8)).map (fun t => (t.fs, t.len, t.out)) =
      some (0b000#3, 0, [.diag .oversizedBlock]) := by decide
theorem test_dles_etx_V_R_18 :
    (after (holding [0x80#8, 0x02#8, 0x28#8] 0xBA#8 (at' .dleSeen .logging false)) (.rxb 0x03#8)).map
      (fun t => (t.fs, t.len, t.acc)) = some (0b100#3, 3, 0xB9#8) := by decide
theorem test_dles_err_V_R_20 :
    (after (holding [0x30#8] 0x20#8 (at' .dleSeen .logging false)) (.rxb 0x02#8)).map
      (fun t => (t.fs, t.len, t.out)) = some (0b000#3, 0, [.diag .unexpectedAfterEscape]) := by decide

/-- V-R-21's state: `80 02 28 10 03` received. -/
def awaitingBcc (ss : SessionState) : State := holding [0x80#8, 0x02#8, 0x28#8] 0xB9#8 (at' .verifyBcc ss false)

theorem test_bcc_ok_V_R_21 :
    (after (awaitingBcc .logging) (.rxb 0xB9#8)).map (fun t => (shown t, t.len, t.acc)) =
      some ((0b001#3, 0b10#2, false, [.dec [0x80#8, 0x02#8, 0x28#8] (some 0xB9#8), .txByte 0x10#8]), 0, 0x00#8) := by
  decide
theorem test_bcc_bad_V_R_23 :
    (after (awaitingBcc .logging) (.rxb 0xB8#8)).map (fun t => (shown t, t.len, t.acc)) =
      some ((0b001#3, 0b10#2, false, [.diag .checksumMismatch, .txByte 0x15#8]), 0, 0x01#8) := by decide
theorem test_bcc_bad_without_diagnostics_V_R_25 :
    (after { awaitingBcc .logging with cfg := { Config.default with diagEn := false } } (.rxb 0xB8#8)).map
      (fun t => t.out) = some [.txByte 0x15#8] := by decide

-- session
theorem test_hss_stx_V_S_02 :
    (after (at' .idle .handshakeStart true) (.rxb 0x02#8)).map shown =
      some (0b001#3, 0b00#2, true, [.txByte 0x02#8]) := by decide
theorem test_hss_dle_pending_V_S_03 :
    (after (at' .idle .handshakeStart true) (.rxb 0x10#8)).map (fun t => (t.ss, t.pv)) =
      some (0b01#2, true) := by decide
theorem test_hss_ign_V_S_05 :
    (after (awaitingBcc .handshakeStart) (.rxb 0xB9#8)).map shown = some (0b001#3, 0b00#2, false, []) := by decide
theorem test_hsc_dle_V_S_06 :
    (after (at' .idle .handshakeConfirm false) (.rxb 0x10#8)).map shown = some (0b001#3, 0b10#2, false, []) := by decide
theorem test_hsc_rej_V_S_07 :
    (after (at' .idle .handshakeConfirm false) (.rxb 0x02#8)).map shown =
      some (0b001#3, 0b00#2, false, [.diag .handshakeRejection]) := by decide
theorem test_hsc_rej_V_S_09 :
    (after (awaitingBcc .handshakeConfirm) (.rxb 0xB9#8)).map shown =
      some (0b001#3, 0b00#2, false, [.diag .handshakeRejection]) := by decide
theorem test_log_stx_pend_V_S_10 :
    (after (at' .idle .logging true) (.rxb 0x02#8)).map shown =
      some (0b001#3, 0b10#2, true, [.txByte 0x02#8]) := by decide
theorem test_log_stx_idle_V_S_11 :
    (after (at' .idle .logging false) (.rxb 0x02#8)).map shown =
      some (0b001#3, 0b10#2, false, [.txByte 0x10#8]) := by decide
theorem test_log_dle_send_V_S_12 :
    (after (at' .idle .logging true) (.rxb 0x10#8)).map shown =
      some (0b001#3, 0b00#2, false, [.txByte 0x07#8, .txByte 0x00#8, .txByte 0x65#8, .txByte 0x65#8, .txByte 0x65#8,
        .txByte 0x65#8, .txByte 0x10#8, .txByte 0x10#8, .txByte 0x65#8, .txByte 0x10#8, .txByte 0x03#8,
        .txByte 0x71#8]) := by decide
theorem test_log_dle_nop_V_S_13 :
    (after (at' .idle .logging false) (.rxb 0x10#8)).map shown =
      some (0b001#3, 0b10#2, false, [.diag .unexpectedDle]) := by decide
theorem test_log_data_V_S_16 :
    (after (at' .idle .logging false) (.rxb 0x15#8)).map shown =
      some (0b001#3, 0b10#2, false, [.dec [0x15#8] none, .txByte 0x10#8]) := by decide

-- codec
theorem test_encode_none_and_ctrl_V_C_01_to_04 :
    encodeBlock [] = [] ∧ encodeBlock [0x02#8] = [0x02#8] ∧ encodeBlock [0x10#8] = [0x10#8] ∧
    encodeBlock [0x15#8] = [0x15#8] := by decide
theorem test_encode_frames_V_C_05_to_09 :
    encodeBlock [0x03#8] = [0x03#8, 0x10#8, 0x03#8, 0x10#8] ∧
    encodeBlock [0xEE#8, 0x00#8, 0x00#8] = [0xEE#8, 0x00#8, 0x00#8, 0x10#8, 0x03#8, 0xFD#8] ∧
    encodeBlock [0x10#8, 0x10#8] = [0x10#8, 0x10#8, 0x10#8, 0x10#8, 0x10#8, 0x03#8, 0x13#8] ∧
    encodeBlock [0x01#8, 0x10#8, 0x03#8] = [0x01#8, 0x10#8, 0x10#8, 0x03#8, 0x10#8, 0x03#8, 0x11#8] := by decide
theorem test_encode_frames_V_C_21_22 :
    encodeBlock [0x13#8] = [0x13#8, 0x10#8, 0x03#8, 0x00#8] ∧
    encodeBlock [0x02#8, 0x00#8, 0x00#8, 0x00#8, 0x00#8, 0x00#8, 0x00#8, 0x00#8] =
      [0x02#8, 0x00#8, 0x00#8, 0x00#8, 0x00#8, 0x00#8, 0x00#8, 0x00#8, 0x10#8, 0x03#8, 0x11#8] := by decide
theorem test_tx_rows :
    (nextState (exec .txNone State.reset)).map (fun t => t.out) = some [] ∧
    (nextState (exec (.txCtrl 0x15#8) State.reset)).map (fun t => t.out) = some [.txByte 0x15#8] ∧
    (nextState (exec (.txFrame [0x01#8, 0x10#8]) State.reset)).map (fun t => t.out) =
      some [.txByte 0x01#8, .txByte 0x10#8, .txByte 0x10#8, .txByte 0x10#8, .txByte 0x03#8, .txByte 0x12#8] := by decide

-- host events and reset
theorem test_rxt_V_H_01 :
    (after (holding [0x80#8, 0x02#8, 0x28#8] 0xAA#8 (at' .collecting .logging true)) .rxt) =
      some (holding [0x80#8, 0x02#8, 0x28#8] 0xAA#8 (at' .collecting .logging true)) := by decide
theorem test_req_accept_V_H_02 :
    (after (at' .resync .handshakeStart false) (.req otherCommand)).map (fun t => (t.pv, t.pbuf, t.out)) =
      some (true, otherCommand, [.reqAck .accepted]) := by decide
theorem test_req_busy_V_H_03 :
    (after (at' .idle .logging true) (.req otherCommand)).map (fun t => (t.pv, t.pbuf, t.out)) =
      some (true, command, [.reqAck .busy, .diag .slotBusy]) := by decide
theorem test_req_overwrite_V_H_04 :
    (after { at' .idle .logging true with cfg := { Config.default with pendPolicy := .overwrite } }
      (.req otherCommand)).map (fun t => (t.pv, t.pbuf, t.out)) =
      some (true, otherCommand, [.reqAck .accepted]) := by decide
theorem test_rst_V_Z_04 :
    (after (holding [0x80#8, 0x02#8] 0x82#8 (at' .collecting .logging true)) .rst).map
      (fun t => (shown t, t.len, t.acc)) = some ((0b000#3, 0b00#2, false, []), 0, 0x00#8) := by decide
/-- R50: BUF has the 20 elements 0 to 19 and no other, at reset and after RST. -/
theorem test_buf_has_its_elements_R50 :
    Memory.read State.reset.buf 19 = some 0x00#8 ∧ Memory.read State.reset.buf 20 = none ∧
    (after (at' .idle .logging true) .rst).map (fun t => t.buf.length) = some 20 := by decide
theorem test_rst_to_idle_R35 :
    (after { at' .dleSeen .logging true with cfg := { Config.default with rxResetState := .idle } } .rst).map
      (fun t => t.fs) = some 0b001#3 := by decide

-- stimulus lines and the channel (R90, R187)
theorem test_stimulus_lines_X8_X9 :
    expandStimulus (.rxf [0x80#8, 0x02#8, 0x28#8]) =
      [.rxb 0x80#8, .rxb 0x02#8, .rxb 0x28#8, .rxb 0x10#8, .rxb 0x03#8, .rxb 0xB9#8] ∧
    expandStimulus (.rxfBad [0x80#8, 0x02#8, 0x28#8]) =
      [.rxb 0x80#8, .rxb 0x02#8, .rxb 0x28#8, .rxb 0x10#8, .rxb 0x03#8, .rxb 0xB8#8] ∧
    expandStimulus (.rxc .nak) = [.rxb 0x15#8] ∧ expandStimulus (.event .rxt) = [.rxt] ∧
    eventOfRead (some 0x41#8) = .rxb 0x41#8 ∧ eventOfRead none = .rxt := by decide

/-- R90 says nothing of a payload without a BCC: the model's choice (log entry 20). -/
theorem test_rxfbad_without_bcc :
    expandStimulus (.rxfBad [0x02#8]) = [.rxb 0x03#8] ∧ expandStimulus (.rxfBad []) = [] := by decide

-- reserved codes (R34)
theorem test_reserved_codes_fault :
    faultState (step { State.reset with fs := 0b101#3, input := [.rst] }) = some .reservedFrameState ∧
    faultState (step { State.reset with ss := 0b11#2, input := [.rxt] }) = some .reservedSessionState := by decide

/-! ### Witnesses -/

theorem legal_at (fs : FrameState) (ss : SessionState) (pv : Bool) : LegalCodes (at' fs ss pv) := by
  simp [LegalCodes, at']

theorem witness_StepRunsTheSelectedRow :
    (LegalCodes { full (at' .collecting .logging false) with input := [.rxb 0x20#8] } ∧
      decode (stepWord (full (at' .collecting .logging false)) (.rxb 0x20#8)) = .ok (.rxCollOvf 0x20#8)) ∧
    (LegalCodes { at' .collecting .logging false with len := 21, input := [.rxb 0x20#8] } ∧
      decode (stepWord { at' .collecting .logging false with len := 21 } (.rxb 0x20#8)) = .error .lenOverMax) := by
  unfold LegalCodes; decide

theorem witness_NothingHappensBetweenEvents : LegalCodes State.reset ∧ State.reset.input = [] := by
  unfold LegalCodes; decide

/-- Each reserved FS, with both codes reserved too, and the reserved SS alone. -/
theorem witness_ReservedCodesFault :
    ({ State.reset with fs := 0b101#3 } : State).fs = 0b101#3 ∧
    ({ State.reset with fs := 0b110#3 } : State).fs = 0b110#3 ∧
    ({ State.reset with fs := 0b111#3 } : State).fs = 0b111#3 ∧
    (({ State.reset with fs := 0b110#3, ss := 0b11#2 } : State).fs = 0b110#3 ∧
      faultState (step { State.reset with fs := 0b110#3, ss := 0b11#2 }) = some .reservedFrameState) ∧
    (({ State.reset with ss := 0b11#2 } : State).ss = 0b11#2 ∧
      (FrameState.ofCode ({ State.reset with ss := 0b11#2 } : State).fs).isSome = true) := by decide

theorem witness_DecodeOfEncode :
    (Instr.scLogData (.data [0x80#8, 0x02#8, 0x28#8] 0xB9#8)).wf = true ∧ (Instr.rxResyncDiscard 0xFF#8).wf = true ∧
    (Instr.evReqOverwrite command).wf = true := by decide

theorem witness_DecodedRowsAreWellFormed :
    decode (.sw 0b10110#5 [0x05#8] (some 0x16#8)) = .ok (.scLogData (.data [0x05#8] 0x16#8)) := by decide

/-- A word of each kind, and one for each guarded row with each value of its guard. -/
theorem witness_EncodeOfDecodeKeepsWhatTheRowFixes :
    decode (.rw 0b01011111111#11 .full true) = .ok (.rxCollOvf 0xFF#8) ∧
    decode (.rw 0b01011111111#11 .left true) = .ok (.rxCollAppend 0xFF#8) ∧
    (rwFs 0b01011111111#11 = 0b010#3 ∧ rwByte 0b01011111111#11 ≠ 0x10#8) ∧
    decode (.rw 0b01100010000#11 .left false) = .ok .rxDlesLit ∧
    decode (.rw 0b01100010000#11 .full false) = .ok .rxDlesOvf ∧
    (rwFs 0b01100010000#11 = 0b011#3 ∧ rwByte 0b01100010000#11 = 0x10#8) ∧
    decode (.rw 0b10000010011#11 .full true) = .ok (.rxBccOk 0x13#8) ∧
    decode (.rw 0b10000010011#11 .full false) = .ok (.rxBccBad 0x13#8) ∧ rwFs 0b10000010011#11 = 0b100#3 ∧
    decode (.sw 0b10011#5 [0x10#8] none) = .ok .scLogDleSend ∧ 0b10011#5 &&& 0x1E#5 = 0x12#5 ∧
    decode (.sw 0b10000#5 [0x02#8] none) = .ok .scLogStxIdle ∧ 0b10000#5 &&& 0x1E#5 = 0x10#5 ∧
    decode (.txc [0x03#8]) = .ok (.txFrame [0x03#8]) ∧
    decode (.req command true .overwrite) = .ok (.evReqOverwrite command) := by decide

theorem witness_ExactlyOneReceiverRowApplies :
    (FrameState.ofCode (rwFs 0b10011111111#11)).isSome = true ∧ Room.full ≠ .beyond := by decide

theorem witness_ExactlyOneSessionRowApplies :
    (Delivery.data [0x05#8] 0x16#8).wf = true ∧ Delivery.stx.wf = true ∧ (0b10#2 : BitVec 2) ≠ 0b11#2 := by decide

theorem witness_StartByteEndsResync :
    (0x00#8 : Byte) ≠ 0x02#8 ∧
    decode (sessionWord (at' .resync .logging true) .stx) = .ok .scLogStxPend ∧
    (SessionState.ofCode (at' .resync .logging true).ss).isSome = true := by decide

theorem witness_ResyncDiscardsOtherBytes : (0x10#8 : Byte) ≠ 0x02#8 ∧ (0x01#8 : Byte) ≠ 0x02#8 := by decide

theorem witness_ControlBytesInIdleAreDelivered :
    decode (sessionWord (at' .idle .handshakeStart false) .stx) = .ok .scHssStx ∧
    decode (sessionWord (at' .idle .handshakeConfirm false) .dle) = .ok .scHscDle ∧
    decode (sessionWord (at' .idle .logging false) .nak) = .ok (.scLogData .nak) ∧
    (SessionState.ofCode (at' .idle .logging false).ss).isSome = true := by decide

theorem witness_FirstByteBeginsABlock :
    (0x03#8 : Byte) ∉ [0x02#8, 0x10#8, 0x15#8] ∧ 1 ≤ ({ Config.default with maxBlock := 1 } : Config).maxBlock ∧
    Memory.wf (State.powerOn { Config.default with maxBlock := 1 }).buf 1 := by decide

theorem witness_DataBytesAreAppended :
    (0x02#8 : Byte) ≠ 0x10#8 ∧
    (holding (List.replicate 19 0x20#8) 0x20#8 (at' .collecting .logging false)).len < Config.default.maxBlock ∧
    Memory.wf (holding (List.replicate 19 0x20#8) 0x20#8 (at' .collecting .logging false)).buf
      Config.default.maxBlock := by decide

theorem witness_OversizedBlockIsAbandoned : (0x02#8 : Byte) ≠ 0x10#8 := by decide

theorem witness_BadEscapeIsAbandoned : (0x02#8 : Byte) ∉ [0x10#8, 0x03#8] ∧ (0x04#8 : Byte) ∉ [0x10#8, 0x03#8] := by decide

theorem witness_VerifiedBlockIsDelivered :
    (SessionState.ofCode (full (at' .verifyBcc .logging false)).ss).isSome = true ∧
    1 ≤ (full (at' .verifyBcc .logging false)).len ∧
    (full (at' .verifyBcc .logging false)).len ≤ (full (at' .verifyBcc .logging false)).cfg.maxBlock ∧
    Memory.wf (full (at' .verifyBcc .logging false)).buf (full (at' .verifyBcc .logging false)).cfg.maxBlock := by decide

/-- Each clause: the reserved SS and a legal one; BUF empty and not; LEN at, below and beyond the size of BUF. -/
theorem witness_ReceiverRowsStopOnlyHere :
    (({ State.reset with ss := 0b11#2 } : State).ss = 0b11#2 ∧ State.reset.ss ≠ 0b11#2) ∧
    (({ State.reset with buf := [] } : State).buf.length = 0 ∧ 0 < State.reset.buf.length) ∧
    ((full State.reset).buf.length ≤ (full State.reset).len ∧ State.reset.len < State.reset.buf.length) ∧
    ({ full State.reset with len := 21 } : State).buf.length < ({ full State.reset with len := 21 } : State).len ∧
    ((full State.reset).len ≤ (full State.reset).buf.length ∧ (full State.reset).ss ≠ 0b11#2 ∧
      ({ full State.reset with ss := 0b11#2 } : State).ss = 0b11#2) := by decide

theorem witness_DleInHandshakeStartRequestsLogging :
    State.reset.cfg.logCmd = [0xEE#8, 0x00#8, 0x00#8] := by decide

theorem witness_HandshakeStartIgnoresNakAndData : ([0x05#8] : List Byte) ≠ [] := by decide

theorem witness_OtherDeliveryRejectsTheHandshake : ([0x80#8, 0x02#8] : List Byte) ≠ [] := by decide

theorem witness_DataIsDecodedThenAcknowledged : ([0x00#8] : List Byte) ≠ [] := by decide

theorem witness_EncoderRowsTransmitTheirEncoding :
    (0x15#8 : Byte) ∈ [0x02#8, 0x10#8, 0x15#8] ∧ ([0x03#8] : List Byte) ≠ [] ∧
    (∀ c, c ∈ [0x02#8, 0x10#8, 0x15#8] → ([0x03#8] : List Byte) ≠ [c]) := by decide

theorem witness_EncodeIsWhatTheEncodingLoopBuilds :
    (0x02#8 : Byte) ∈ [0x02#8, 0x10#8, 0x15#8] ∧ ([0x02#8, 0x05#8] : List Byte) ≠ [] ∧
    (∀ c, c ∈ [0x02#8, 0x10#8, 0x15#8] → ([0x02#8, 0x05#8] : List Byte) ≠ [c]) := by decide

theorem witness_StuffingDoublesOnlyDle : (0x02#8 : Byte) ≠ 0x10#8 := by decide

/-- A block of one byte, and one of MAX_BLOCK bytes; and a control delivery. -/
theorem witness_EncodedPayloadsAreReceived :
    (at' .idle .logging false).fs = 0b001#3 ∧ (SessionState.ofCode (at' .idle .logging false).ss).isSome = true ∧
    (0x03#8 : Byte) ∉ [0x02#8, 0x10#8, 0x15#8] ∧ ([0x03#8] : List Byte).length ≤ (at' .idle .logging false).cfg.maxBlock ∧
    (0x03#8 :: List.replicate 19 0x10#8).length ≤ (at' .idle .logging false).cfg.maxBlock ∧
    Memory.wf (at' .idle .logging false).buf (at' .idle .logging false).cfg.maxBlock ∧
    Delivery.nak.bcc = none := by decide

theorem witness_SpoiledFramesAreAnsweredWithNak :
    (at' .idle .handshakeConfirm false).fs = 0b001#3 ∧
    (SessionState.ofCode (at' .idle .handshakeConfirm false).ss).isSome = true ∧
    (0x80#8 : Byte) ∉ [0x02#8, 0x10#8, 0x15#8] ∧
    (0x80#8 :: List.replicate 19 0x10#8).length ≤ (at' .idle .handshakeConfirm false).cfg.maxBlock ∧
    Memory.wf (at' .idle .handshakeConfirm false).buf (at' .idle .handshakeConfirm false).cfg.maxBlock ∧
    (0x80#8 : Byte) ≠ 0x00#8 := by decide

/-- One byte too many, and three, without STX in the rest of the frame. -/
theorem witness_OverlongPayloadsAreAbandoned :
    (at' .idle .logging false).fs = 0b001#3 ∧ (SessionState.ofCode (at' .idle .logging false).ss).isSome = true ∧
    (0x20#8 : Byte) ∉ [0x02#8, 0x10#8, 0x15#8] ∧ 1 ≤ (at' .idle .logging false).cfg.maxBlock ∧
    (0x20#8 :: List.replicate 20 0x10#8).length = (at' .idle .logging false).cfg.maxBlock + 1 ∧
    Memory.wf (at' .idle .logging false).buf (at' .idle .logging false).cfg.maxBlock ∧
    (∀ r ∈ [[], [0x41#8, 0x10#8]], (0x02#8 : Byte) ∉ r ∧
      frameBcc (0x20#8 :: List.replicate 20 0x10#8 ++ r) ≠ 0x02#8) := by decide

/-- STX and NAK before a block that could be received, and DLE. -/
theorem witness_PayloadsThatBeginWithAControlByteAreMisread :
    (at' .idle .logging false).fs = 0b001#3 ∧ (SessionState.ofCode (at' .idle .logging false).ss).isSome = true ∧
    (∀ d ∈ [Delivery.stx, .dle, .nak], d.bcc = none) ∧
    Delivery.stx.blk = [0x02#8] ∧ Delivery.nak.blk = [0x15#8] ∧ Delivery.dle.blk = [0x10#8] ∧
    (0x02#8 : Byte) ≠ 0x10#8 ∧ (0x05#8 : Byte) ∉ [0x02#8, 0x10#8, 0x15#8] ∧
    (0x05#8 :: List.replicate 19 0x10#8).length ≤ (at' .idle .logging false).cfg.maxBlock ∧
    Memory.wf (at' .idle .logging false).buf (at' .idle .logging false).cfg.maxBlock := by decide

/-- A receiver that waits for the BCC of `80 02 28` meets the invariant. -/
theorem inv_awaitingBcc (ss : SessionState) (l : List Event) : Inv { awaitingBcc ss with input := l } where
  maxBlock := show 1 ≤ 20 by decide
  bufWf := rfl
  session := by cases ss <;> rfl
  receiver := show HoldsBlock { awaitingBcc ss with input := l } [DLE, ETX] from
    ⟨0x80#8, [0x02#8, 0x28#8], rfl, show (0x80#8 : Byte) ∉ CTRL by decide, show 3 ≤ 20 by decide, rfl⟩

/-- A receiver between blocks meets the invariant. -/
theorem inv_idle (ss : SessionState) (pv : Bool) (l : List Event) : Inv { at' .idle ss pv with input := l } where
  maxBlock := show 1 ≤ 20 by decide
  bufWf := rfl
  session := by cases ss <;> rfl
  receiver := show (0 : Nat) = 0 from rfl

/-- A block with its checksum, and a NAK. -/
theorem witness_DecodedBlocksWereVerified :
    (Inv { awaitingBcc .logging with input := [.rxb 0xB9#8] } ∧
      ∃ t, step { awaitingBcc .logging with input := [.rxb 0xB9#8] } = .next t ∧
        t.out = [] ++ [.dec [0x80#8, 0x02#8, 0x28#8] (some 0xB9#8), .txByte 0x10#8]) ∧
    (Inv { at' .idle .logging false with input := [.rxb 0x15#8] } ∧
      ∃ t, step { at' .idle .logging false with input := [.rxb 0x15#8] } = .next t ∧
        t.out = [] ++ [.dec [0x15#8] none, .txByte 0x10#8]) :=
  ⟨⟨inv_awaitingBcc .logging _, _, rfl, by decide⟩, inv_idle .logging false _, _, rfl, by decide⟩

theorem witness_PowerOnMeetsTheInvariant : 1 ≤ ({ Config.default with maxBlock := 1 } : Config).maxBlock := by decide

theorem witness_EveryStepKeepsTheInvariant :
    Inv { awaitingBcc .handshakeStart with input := [.rxb 0xB8#8] } ∧
      ∃ t, step { awaitingBcc .handshakeStart with input := [.rxb 0xB8#8] } = .next t :=
  ⟨inv_awaitingBcc .handshakeStart _, _, rfl⟩

theorem witness_NoInputStopsTheMachine : Inv { at' .idle .logging true with input := [.rst] } := inv_idle .logging true _

theorem witness_OutputIsOnlyAppended :
    ∃ t, step { at' .idle .logging true with input := [.rxb 0x10#8] } = .next t ∧ t.out.length = 12 :=
  ⟨_, rfl, by decide⟩

theorem witness_ParametersStayAndOneEventIsConsumed :
    ∃ t, step { at' .idle .logging true with input := [.rxt, .rst] } = .next t ∧ t.input = [.rst] := ⟨_, rfl, rfl⟩

/-- A received byte that changes the receiver, one that changes PV, and a load that changes PBUF. -/
theorem witness_EveryElementHasItsWriters :
    (∃ t, step { at' .idle .logging false with input := [.rxb 0x80#8] } = .next t ∧ t.fs ≠ 0b001#3) ∧
    (∃ t, step { at' .idle .logging true with input := [.rxb 0x10#8] } = .next t ∧ t.pv ≠ true) ∧
    (∃ t, step { at' .idle .logging false with input := [.req otherCommand] } = .next t ∧ t.pbuf ≠ command) :=
  ⟨⟨_, rfl, by decide⟩, ⟨_, rfl, by decide⟩, _, rfl, by decide⟩

theorem witness_BufChangesOnlyWhereAByteIsStored :
    ∃ t, step { holding [0x80#8] 0x80#8 (at' .collecting .logging false) with input := [.rxb 0x02#8] } = .next t ∧
      Memory.read t.buf 0 = some 0x80#8 ∧ Memory.read t.buf 1 = some 0x02#8 := ⟨_, rfl, by decide⟩

/-- PV set by a load, and cleared by the send and by reset. -/
theorem witness_PendingFlagChangesOnlyByLoadSendAndReset :
    (∃ t, step { at' .idle .logging false with input := [.req command] } = .next t ∧ t.pv = true) ∧
    (∃ t, step { at' .idle .logging true with input := [.rxb 0x10#8] } = .next t ∧ t.pv = false) ∧
    (∃ t, step { at' .idle .logging true with input := [.rst] } = .next t ∧ t.pv = false) :=
  ⟨⟨_, rfl, rfl⟩, ⟨_, rfl, rfl⟩, _, rfl, rfl⟩

/-- Each of the five changes of SS. -/
theorem witness_SessionChangesOnlyOnItsTransitions :
    (∃ t, step { at' .resync .logging false with input := [.rst] } = .next t ∧ t.ss ≠ 0b10#2) ∧
    (∃ t, step { at' .idle .handshakeStart false with input := [.rxb 0x10#8] } = .next t ∧ t.ss ≠ 0b00#2) ∧
    (∃ t, step { at' .idle .handshakeConfirm false with input := [.rxb 0x10#8] } = .next t ∧ t.ss ≠ 0b01#2) ∧
    (∃ t, step { at' .resync .handshakeConfirm false with input := [.rxb 0x02#8] } = .next t ∧ t.ss ≠ 0b01#2) ∧
    (∃ t, step { at' .idle .logging true with input := [.rxb 0x10#8] } = .next t ∧ t.ss ≠ 0b10#2) :=
  ⟨⟨_, rfl, by decide⟩, ⟨_, rfl, by decide⟩, ⟨_, rfl, by decide⟩, ⟨_, rfl, by decide⟩, _, rfl, by decide⟩

theorem witness_ResyncIsLeftOnlyOnTheStartByte :
    (∃ t, step { at' .resync .logging false with input := [.rxb 0x02#8] } = .next t ∧ t.fs ≠ 0b000#3) ∧
    (∃ t, step { at' .resync .logging false with cfg := { Config.default with rxResetState := .idle },
                                                 input := [.rst] } = .next t ∧ t.fs ≠ 0b000#3) :=
  ⟨⟨_, rfl, by decide⟩, _, rfl, by decide⟩

/-- A reply with a diagnostic. -/
theorem witness_AtMostOneReplyAStep :
    ∃ t, step { awaitingBcc .logging with input := [.rxb 0xB8#8] } = .next t ∧
      t.out = [] ++ [.diag .checksumMismatch, .txByte 0x15#8] := ⟨_, rfl, by decide⟩

theorem witness_AtMostOneDiagnosticAStep :
    ({ Config.default with diagEn := false } : Config).diagEn = false ∧
    ∃ t, step { awaitingBcc .logging with cfg := { Config.default with diagEn := false },
                                          input := [.rxb 0xB8#8] } = .next t ∧ t.out = [] ++ [.txByte 0x15#8] :=
  ⟨rfl, _, rfl, by decide⟩

theorem witness_EachRequestIsAnsweredOnce :
    (∃ t, step { at' .idle .logging true with input := [.req otherCommand] } = .next t ∧
      t.out = [] ++ [.reqAck .busy, .diag .slotBusy]) ∧
    (∀ p, ({ at' .idle .logging true with input := [.rxb 0x02#8] } : State).input.head? ≠ some (.req p)) :=
  ⟨⟨_, rfl, by decide⟩, by simp⟩

/-- A step with a diagnostic, and one that faults. -/
theorem witness_DiagnosticsChangeNothingElse :
    ({ awaitingBcc .logging with input := [.rxb 0xB8#8] } : State).cfg.diagEn = true ∧
    (∃ t, step { awaitingBcc .logging with input := [.rxb 0xB8#8] } = .next t ∧
      t.out = [] ++ [.diag .checksumMismatch, .txByte 0x15#8]) ∧
    step { State.reset with ss := 0b11#2 } = .fault .reservedSessionState :=
  ⟨rfl, ⟨_, rfl, by decide⟩, rfl⟩

/-- Two states that differ in ACC in IDLE, in BUF beyond LEN and in PBUF while PV = 0. -/
theorem witness_DeadStateIsNeverObserved :
    SameLive (at' .idle .logging false)
      { at' .idle .logging false with acc := 0x55#8, buf := List.replicate 20 0x41#8, pbuf := otherCommand } where
  fs := rfl
  len := rfl
  ss := rfl
  pv := rfl
  out := rfl
  cfg := rfl
  input := rfl
  draws := rfl
  acc := fun h => by
    rcases h with h | h | h <;> exact absurd h (by decide)
  size := rfl
  buf := fun i hi => absurd hi (Nat.not_lt_zero i)
  pbuf := fun h => by cases h

end Sys2Proof.Tests
end

/-! ### Scope: steps and words (00_scope.md) -/

section
namespace Sys2Proof.Machine

/-- Settles O1: legal codes exclude the two reserved-code faults, so what a step does is what the next event's row, or its
absence, says. -/
theorem stepRunsTheSelectedRow : Obligations.StepRunsTheSelectedRow := by
  intro s e rest hlegal hin
  have hc : reservedCode s = none := (reservedCode_none_iff s).2 hlegal
  constructor
  · intro i hi
    exact step_event hc hin hi
  · intro err herr
    exact step_no_row hc hin herr

end Sys2Proof.Machine
end

/-! ### What deliveries and events write (10_state.md R20) -/

section
namespace Sys2Proof.Machine

/-- A delivery writes SS, PV and OUT only; it leaves a legal SS and appends to OUT (R136, R150). -/
theorem delivered_writes {u t : State} {d : Delivery} (h : Delivered u d t) :
    ∃ (x : SessionState) (pv : Bool) (l : List OutEvent),
      t = { u with ss := x.code, pv := pv, out := u.out ++ l } ∧ (pv = true → u.pv = true) := by
  cases h with
  | hssStx hs => exact ⟨.handshakeStart, u.pv, _, by rw [← hs, emit], id⟩
  | hssDle _ => exact ⟨.handshakeConfirm, u.pv, _, rfl, id⟩
  | hssIgn _ hs _ => exact ⟨.handshakeStart, u.pv, [], by rw [← hs, List.append_nil], id⟩
  | hscDle _ => exact ⟨.logging, u.pv, [], by rw [List.append_nil, setSs], id⟩
  | hscRej _ _ _ => exact ⟨.handshakeStart, u.pv, _, rfl, id⟩
  | logStxPend hs _ => exact ⟨.logging, u.pv, _, by rw [← hs, emit], id⟩
  | logStxIdle hs _ => exact ⟨.logging, u.pv, _, by rw [← hs, emit], id⟩
  | logDleSend _ _ => exact ⟨.handshakeStart, false, _, rfl, nofun⟩
  | logDleNop hs _ => exact ⟨.logging, u.pv, _, by rw [← hs, emit], id⟩
  | logData _ hs _ => exact ⟨.logging, u.pv, _, by rw [← hs, emit], id⟩

/-- What each kind of event may write, and how much of it is known without saying which row runs: one constructor for no
event, and the others for the events of R6. -/
inductive EventWrites (s : State) : State → Prop where
  | nothing (hin : s.input = []) : EventWrites s s
  | byte {b : Byte} {rest : List Event} {fs : BitVec 3} {buf : Memory} {len : Nat} {acc : Byte} {ss : BitVec 2} {pv : Bool}
      {l : List OutEvent} (hin : s.input = .rxb b :: rest) (hsize : buf.length = s.buf.length)
      (hss : (SessionState.ofCode s.ss).isSome = true → (SessionState.ofCode ss).isSome = true)
      (hpv : pv = true → s.pv = true) :
      EventWrites s { s with input := rest, fs := fs, buf := buf, len := len, acc := acc, ss := ss, pv := pv,
                             out := s.out ++ l }
  | timeout {rest : List Event} (hin : s.input = .rxt :: rest) : EventWrites s { s with input := rest }
  | loaded {p : Payload} {rest : List Event} {l : List OutEvent} (hin : s.input = .req p :: rest) :
      EventWrites s { s with input := rest, pbuf := p, pv := true, out := s.out ++ l }
  | busy {p : Payload} {rest : List Event} {l : List OutEvent} (hin : s.input = .req p :: rest) :
      EventWrites s { s with input := rest, out := s.out ++ l }
  | reset {rest : List Event} (hin : s.input = .rst :: rest) : EventWrites s (applyReset { s with input := rest })

/-- A received byte that writes the receiver's elements and emits nothing. -/
theorem EventWrites.silentByte {s : State} {b : Byte} {rest : List Event} {fs : BitVec 3} {buf : Memory} {len : Nat}
    {acc : Byte} (hin : s.input = .rxb b :: rest) (hsize : buf.length = s.buf.length) :
    EventWrites s { s with input := rest, fs := fs, buf := buf, len := len, acc := acc } := by
  simpa using EventWrites.byte (fs := fs) (len := len) (acc := acc) (pv := s.pv) (l := []) hin hsize id id

/-- A received byte that writes the receiver's elements and then delivers. -/
theorem EventWrites.deliveringByte {s t : State} {b : Byte} {rest : List Event} {fs : BitVec 3} {len : Nat} {acc : Byte}
    {d : Delivery} (hin : s.input = .rxb b :: rest)
    (hd : Delivered { s with input := rest, fs := fs, len := len, acc := acc } d t) : EventWrites s t := by
  obtain ⟨x, pv, l, rfl, hpv⟩ := delivered_writes hd
  exact .byte hin rfl (fun _ => by simp) hpv

/-- What every step writes is within what its event may write. -/
theorem eventWrites_of_effect {s t : State} (h : StepEffect s t) : EventWrites s t := by
  cases h with
  | noEvent hin => exact .nothing hin
  | resyncStx hin _ hd => exact .deliveringByte hin hd
  | discard _ hin _ _ => exact .silentByte hin rfl
  | idleStx hin _ hd => exact .deliveringByte hin hd
  | idleDle hin _ hd => exact .deliveringByte hin hd
  | idleNak hin _ hd => exact .deliveringByte hin hd
  | start _ hin _ _ _ => exact .silentByte hin (memory_write_length ..)
  | collDle hin _ => exact .silentByte hin rfl
  | append _ hin _ _ _ _ => exact .silentByte hin (memory_write_length ..)
  | collOvf _ hin _ _ _ => exact .byte hin rfl id id
  | lit hin _ _ _ => exact .silentByte hin (memory_write_length ..)
  | dlesOvf hin _ _ => exact .byte hin rfl id id
  | etx hin _ => exact .silentByte hin rfl
  | dlesErr _ hin _ _ _ => exact .byte hin rfl id id
  | bccOk _ _ hin _ _ _ hd => exact .deliveringByte hin hd
  | bccBad _ hin _ _ => exact .byte hin rfl id id
  | rxt hin => exact .timeout hin
  | reqAccept _ hin _ => exact .loaded hin
  | reqBusy _ hin _ _ => exact .busy hin
  | reqOverwrite _ hin _ _ => exact .loaded hin
  | rst hin => exact .reset hin

theorem step_eventWrites {s t : State} (h : step s = .next t) : EventWrites s t :=
  eventWrites_of_effect (step_effect h)

/-- Settles O47: each event's writes to OUT are an append, a reset's included. -/
theorem outputIsOnlyAppended : Obligations.OutputIsOnlyAppended := by
  intro s t h
  cases step_eventWrites h with
  | nothing _ => exact ⟨[], by simp⟩
  | byte _ _ _ _ => exact ⟨_, rfl⟩
  | timeout _ => exact ⟨[], by simp⟩
  | loaded _ => exact ⟨_, rfl⟩
  | busy _ => exact ⟨_, rfl⟩
  | reset _ => exact ⟨[], by simp⟩

/-- Settles O48: no event's writes include the parameters, and each consumes its event. -/
theorem parametersStayAndOneEventIsConsumed : Obligations.ParametersStayAndOneEventIsConsumed := by
  intro s t h
  cases step_eventWrites h with
  | nothing hin => exact ⟨rfl, by simp [hin]⟩
  | byte hin _ _ _ => exact ⟨rfl, by simp [hin]⟩
  | timeout hin => exact ⟨rfl, by simp [hin]⟩
  | loaded hin => exact ⟨rfl, by simp [hin]⟩
  | busy hin => exact ⟨rfl, by simp [hin]⟩
  | reset hin => exact ⟨rfl, by simp [hin]⟩

/-- Settles O49: the elements that an event's writes do not mention are as before. -/
theorem everyElementHasItsWriters : Obligations.EveryElementHasItsWriters := by
  intro s t h
  cases step_eventWrites h with
  | nothing _ => simp
  | byte hin _ _ _ => simp [hin]
  | timeout _ => simp
  | loaded hin => simp [hin]
  | busy _ => simp
  | reset hin => simp [hin]

/-! ### The pending flag (10_state.md R30) -/

/-- A delivery clears PV only by sending PBUF (R158). -/
theorem delivered_pv_cleared {u t : State} {d : Delivery} (h : Delivered u d t) (hu : u.pv = true) (ht : t.pv = false) :
    d = .dle ∧ u.ss = SessionState.logging.code ∧ t.ss = SessionState.handshakeStart.code ∧
      t.out = u.out ++ (frame u.pbuf.toList).map .txByte := by
  cases h with
  | logDleSend hs _ => exact ⟨rfl, hs, rfl, rfl⟩
  | _ => exact Bool.noConfusion (hu.symm.trans ht)

/-- PV goes from 0 to 1 only by a load. -/
theorem eventWrites_pv_set {s t : State} (h : EventWrites s t) (hs : s.pv = false) (ht : t.pv = true) :
    ∃ p, s.input.head? = some (.req p) ∧ t.pbuf = p := by
  cases h with
  | loaded hin => exact ⟨_, by rw [hin]; rfl, rfl⟩
  | byte _ _ _ hpv => exact Bool.noConfusion (hs.symm.trans (hpv ht))
  | reset _ => exact Bool.noConfusion ht
  | _ => exact Bool.noConfusion (hs.symm.trans ht)

/-- PV goes from 1 to 0 only by a reset or by the delivery that sends PBUF, which is that of a DLE in IDLE. -/
theorem stepEffect_pv_cleared {s t : State} (h : StepEffect s t) (hs : s.pv = true) (ht : t.pv = false) :
    s.input.head? = some .rst ∨
      (s.input.head? = some (.rxb DLE) ∧ s.fs = FrameState.idle.code ∧ s.ss = SessionState.logging.code ∧
        t.ss = SessionState.handshakeStart.code ∧ t.out = s.out ++ (frame s.pbuf.toList).map .txByte) := by
  cases h with
  | rst hin => exact .inl (by rw [hin]; rfl)
  | idleDle hin hf hd =>
    obtain ⟨-, hss, hss', hout⟩ := delivered_pv_cleared hd hs ht
    exact .inr ⟨by rw [hin]; rfl, hf, hss, hss', hout⟩
  | resyncStx _ _ hd => cases (delivered_pv_cleared hd hs ht).1
  | idleStx _ _ hd => cases (delivered_pv_cleared hd hs ht).1
  | idleNak _ _ hd => cases (delivered_pv_cleared hd hs ht).1
  | bccOk _ _ _ _ _ _ hd => cases (delivered_pv_cleared hd hs ht).1
  | reqAccept _ _ _ => exact Bool.noConfusion ht
  | reqOverwrite _ _ _ _ => exact Bool.noConfusion ht
  | _ => exact Bool.noConfusion (hs.symm.trans ht)

/-- Settles O51: a load alone sets PV, and a reset or the send of PBUF alone clears it. -/
theorem pendingFlagChangesOnlyByLoadSendAndReset : Obligations.PendingFlagChangesOnlyByLoadSendAndReset :=
  fun _ _ h => ⟨eventWrites_pv_set (step_eventWrites h), stepEffect_pv_cleared (step_effect h)⟩

/-! ### Reserved codes and the invariant (10_state.md R24, R25, R34, 41_receiver.md R137) -/

theorem step_reserved {s : State} {f : Fault} (h : reservedCode s = some f) : step s = .fault f := by
  simp [step, h]

/-- Settles O3: the reserved FS codes name no state, and FS is looked at before SS. -/
theorem reservedCodesFault : Obligations.ReservedCodesFault := by
  intro s
  constructor
  · intro hfs
    have hnone : FrameState.ofCode s.fs = none := by rcases hfs with h | h | h <;> rw [h] <;> rfl
    exact step_reserved (by simp [reservedCode, hnone])
  · intro hss hfs
    have hnone : SessionState.ofCode s.ss = none := by rw [hss]; rfl
    have hlegal : (FrameState.ofCode s.fs).isNone = false := by simpa [Option.isSome_iff_ne_none] using hfs
    exact step_reserved (by simp only [reservedCode, hlegal, hnone]; rfl)

/-- `ReceiverInv` in a FrameState that is known. -/
def ReceiverInvIn (s : State) : FrameState → Prop
  | .resync => s.len = 0
  | .idle => s.len = 0
  | .collecting => HoldsBlock s []
  | .dleSeen => HoldsBlock s [DLE]
  | .verifyBcc => HoldsBlock s [DLE, ETX]

theorem receiverInv_iff {s : State} {f : FrameState} (h : s.fs = f.code) : ReceiverInv s ↔ ReceiverInvIn s f := by
  rw [ReceiverInv, h, frameState_ofCode_code]
  cases f <;> rfl

/-- Where no block is held, LEN = 0 is all that the invariant says of the receiver. -/
theorem receiverInv_between {s : State} {f : FrameState} (h : s.fs = f.code) (hf : f = .resync ∨ f = .idle)
    (hlen : s.len = 0) : ReceiverInv s := by
  rw [receiverInv_iff h]
  rcases hf with rfl | rfl <;> exact hlen

/-- Both values of RX_RESET_STATE are states between blocks (R35). -/
theorem receiverInv_of_resetCode {s : State} {r : RxResetState} (h : s.fs = r.frameState.code) (hlen : s.len = 0) :
    ReceiverInv s := by
  cases r with
  | resync => exact receiverInv_between (f := .resync) h (.inl rfl) hlen
  | idle => exact receiverInv_between (f := .idle) h (.inr rfl) hlen

theorem powerOn_inv {c : Config} (h : 1 ≤ c.maxBlock) : Inv (State.powerOn c) where
  maxBlock := h
  bufWf := powerOn_buf_wf c
  session := rfl
  receiver := receiverInv_of_resetCode (r := c.rxResetState) rfl rfl

/-- Settles O44: the reset state is the power-on state of the default parameters. -/
theorem powerOnMeetsTheInvariant : Obligations.PowerOnMeetsTheInvariant :=
  ⟨powerOn_inv (c := Config.default) (by decide), fun _ => powerOn_inv⟩

/-- The first byte of a block is a block of one byte, and ACC is that byte (R126). -/
theorem holdsBlock_start {s : State} {b : Byte} (hb : b ∉ CTRL) (hsize : 0 < s.buf.length) (hmax : 1 ≤ s.cfg.maxBlock) :
    HoldsBlock { s with buf := Memory.write s.buf 0 b, len := 1, acc := b } [] := by
  have hheld := memory_firstBytes_append (m := s.buf) (n := 0) (l := []) (by simp [Memory.firstBytes]) hsize b
  have hdle : b ≠ DLE := fun h => hb (h ▸ by decide)
  exact ⟨b, [], hheld, hb, hmax, by simp [stuff_single_other hdle]⟩

/-- A byte that is folded into ACC and not stored joins the tail (R127, R132). -/
theorem holdsBlock_fold {s : State} {tail : List Byte} (h : HoldsBlock s tail) (c : Byte) :
    HoldsBlock { s with acc := s.acc ^^^ c } (tail ++ [c]) := by
  obtain ⟨b, blk, hheld, hb, hmax, hacc⟩ := h
  exact ⟨b, blk, hheld, hb, hmax, by simp [hacc, BitVec.xor_assoc]⟩

/-- A byte that is stored joins the block, and ends the tail where its stuffed form is the tail and the byte folded into ACC
(R128, R130). -/
theorem holdsBlock_append {s : State} {tail : List Byte} {c : Byte} (h : HoldsBlock s tail) (hsize : s.len < s.buf.length)
    (hmax : s.len < s.cfg.maxBlock) (hstuff : stuff [c] = tail ++ [c]) :
    HoldsBlock { s with buf := Memory.write s.buf s.len c, len := s.len + 1, acc := s.acc ^^^ c } [] := by
  obtain ⟨b, blk, hheld, hb, -, hacc⟩ := h
  have hbytes : stuff (b :: (blk ++ [c])) = stuff (b :: blk) ++ (tail ++ [c]) := by
    rw [← List.cons_append, stuff_append, hstuff]
  refine ⟨b, blk ++ [c], memory_firstBytes_append hheld hsize c, hb, hmax, ?_⟩
  simp only [hacc, hbytes]
  simp [BitVec.xor_assoc]

/-- A delivery leaves what the invariant says of the receiver. -/
theorem delivered_receiverInv {u t : State} {d : Delivery} (h : Delivered u d t) (hu : ReceiverInv u) : ReceiverInv t := by
  obtain ⟨x, pv, l, rfl, -⟩ := delivered_writes h
  exact hu

/-- Every step keeps what the invariant says of LEN, BUF and ACC, row by row. -/
theorem stepEffect_receiverInv {s t : State} (h : StepEffect s t) (hi : Inv s) : ReceiverInv t := by
  have hin {f : FrameState} (hf : s.fs = f.code) : ReceiverInvIn s f := (receiverInv_iff hf).1 hi.receiver
  cases h with
  | noEvent _ => exact hi.receiver
  | resyncStx _ hf hd => exact delivered_receiverInv hd (receiverInv_between (f := .idle) rfl (.inr rfl) (hin hf))
  | discard _ _ _ _ => exact hi.receiver
  | idleStx _ _ hd => exact delivered_receiverInv hd hi.receiver
  | idleDle _ _ hd => exact delivered_receiverInv hd hi.receiver
  | idleNak _ _ hd => exact delivered_receiverInv hd hi.receiver
  | start b _ _ hb hsize =>
    exact (receiverInv_iff (f := .collecting) rfl).2 (holdsBlock_start hb hsize hi.maxBlock)
  | collDle _ hf => exact (receiverInv_iff (f := .dleSeen) rfl).2 (holdsBlock_fold (hin hf) DLE)
  | append b _ hf hb hmax hsize =>
    exact (receiverInv_iff (f := .collecting) (by exact hf)).2 (holdsBlock_append (hin hf) hsize hmax (stuff_single_other hb))
  | collOvf _ _ _ _ _ => exact receiverInv_between (f := .resync) rfl (.inl rfl) rfl
  | lit _ hf hmax hsize =>
    exact (receiverInv_iff (f := .collecting) rfl).2 (holdsBlock_append (hin hf) hsize hmax stuff_single_dle)
  | dlesOvf _ _ _ => exact receiverInv_between (f := .resync) rfl (.inl rfl) rfl
  | etx _ hf => exact (receiverInv_iff (f := .verifyBcc) rfl).2 (holdsBlock_fold (hin hf) ETX)
  | dlesErr _ _ _ _ _ => exact receiverInv_between (f := .resync) rfl (.inl rfl) rfl
  | bccOk _ _ _ _ _ _ hd => exact delivered_receiverInv hd (receiverInv_between (f := .idle) rfl (.inr rfl) rfl)
  | bccBad _ _ _ _ => exact receiverInv_between (f := .idle) rfl (.inr rfl) rfl
  | rxt _ => exact hi.receiver
  | reqAccept _ _ _ => exact hi.receiver
  | reqBusy _ _ _ _ => exact hi.receiver
  | reqOverwrite _ _ _ _ => exact hi.receiver
  | rst _ => exact receiverInv_of_resetCode (r := s.cfg.rxResetState) rfl rfl

/-- The rest of the invariant needs no rows: the parameters stay, BUF keeps its size, and SS stays legal. -/
theorem inv_of_eventWrites {s t : State} (h : EventWrites s t) (hi : Inv s) (hr : ReceiverInv t) : Inv t := by
  obtain ⟨hmax, hbuf, hss, -⟩ := hi
  cases h with
  | nothing _ => exact ⟨hmax, hbuf, hss, hr⟩
  | byte _ hsize hsession _ => exact ⟨hmax, hsize.trans hbuf, hsession hss, hr⟩
  | timeout _ => exact ⟨hmax, hbuf, hss, hr⟩
  | loaded _ => exact ⟨hmax, hbuf, hss, hr⟩
  | busy _ => exact ⟨hmax, hbuf, hss, hr⟩
  | reset _ => exact ⟨hmax, applyReset_buf_wf _, rfl, hr⟩

/-- Settles O45: the receiver's part of the invariant is kept row by row, the rest by what each event may write. -/
theorem everyStepKeepsTheInvariant : Obligations.EveryStepKeepsTheInvariant :=
  fun _ _ hi h => inv_of_eventWrites (step_eventWrites h) hi (stepEffect_receiverInv (step_effect h) hi)

end Sys2Proof.Machine
end

/-! ### Dead state (10_state.md R36): operations keep the agreement of two states -/

section
namespace Sys2Proof.Machine

/-- Between blocks ACC is dead (R36). -/
theorem not_accIsLive_between {s : State} {f : FrameState} (h : s.fs = f.code) (hf : f = .resync ∨ f = .idle) :
    ¬ AccIsLive s := by
  rw [AccIsLive, h, frameState_ofCode_code]
  rcases hf with rfl | rfl <;> decide

section
variable {s t : State} (h : SameLive s t)
include h

theorem sameLive_input (l : List Event) : SameLive { s with input := l } { t with input := l } :=
  { h with input := rfl }

theorem sameLive_emit (l : List OutEvent) : SameLive (emit l s) (emit l t) :=
  { h with out := by simp [h.out] }

theorem sameLive_diag (c : DiagCode) : SameLive (diag c s) (diag c t) := by
  rw [diag_eq_emit, diag_eq_emit, h.cfg]
  exact sameLive_emit h _

theorem sameLive_setSs (x : SessionState) : SameLive (setSs x s) (setSs x t) :=
  { h with ss := rfl }

/-- Moving to a FrameState in which ACC is read needs the two ACCs to agree. -/
theorem sameLive_setFs (f : FrameState) (hacc : s.acc = t.acc) : SameLive (setFs f s) (setFs f t) :=
  { h with fs := rfl, acc := fun _ => hacc }

/-- Folding a byte into ACCs that agree (R127, R132). -/
theorem sameLive_foldAcc (hacc : s.acc = t.acc) (b : Byte) (f : FrameState) :
    SameLive (setFs f { s with acc := s.acc ^^^ b }) (setFs f { t with acc := t.acc ^^^ b }) :=
  { h with fs := rfl, acc := fun _ => congrArg (· ^^^ b) hacc }

/-- PBUF is dead after the send, which clears PV (R158). -/
theorem sameLive_clearPending : SameLive { s with pv := false } { t with pv := false } :=
  { h with pv := rfl, pbuf := nofun }

/-- A load writes all of PBUF (R181, R183). -/
theorem sameLive_loadPending (p : Payload) : SameLive (loadPending p s) (loadPending p t) :=
  { h with pv := rfl, pbuf := fun _ => rfl }

/-- The end of RESYNC needs no agreement of the ACCs (R121). -/
theorem sameLive_toIdle : SameLive (setFs .idle s) (setFs .idle t) :=
  { h with fs := rfl, acc := fun hlive => absurd hlive (not_accIsLive_between (f := .idle) rfl (.inr rfl)) }

/-- Where a block ends, ACC and BUF are dead. -/
theorem sameLive_endBlock {f : FrameState} (hf : f = .resync ∨ f = .idle) (a a' : Byte) :
    SameLive (setFs f { s with len := 0, acc := a }) (setFs f { t with len := 0, acc := a' }) :=
  { h with
    fs := rfl
    len := rfl
    acc := fun hlive => absurd hlive (not_accIsLive_between rfl hf)
    buf := fun i hi => absurd hi (Nat.not_lt_zero i) }

theorem sameLive_abandonBlock (c : DiagCode) : SameLive (abandonBlock c s) (abandonBlock c t) :=
  sameLive_diag (sameLive_endBlock h (.inl rfl) s.acc t.acc) c

/-- A reset draws the same free bytes in both states. -/
theorem sameLive_applyReset : SameLive (applyReset s) (applyReset t) where
  fs := by simp [h.cfg]
  len := rfl
  ss := rfl
  pv := rfl
  out := h.out
  cfg := h.cfg
  input := h.input
  draws := by simp [h.cfg, h.draws]
  acc := fun _ => rfl
  size := by simp [h.cfg]
  buf := fun _ hi => absurd hi (Nat.not_lt_zero _)
  pbuf := nofun

/-- Storing a byte behind bytes of BUF that agree, with one value for ACC (R126, R128, R130). -/
theorem sameLive_store {i : Nat} (hsize : i < s.buf.length) (hbuf : ∀ j, j < i → Memory.read s.buf j = Memory.read t.buf j)
    (b a : Byte) :
    SameLive { s with buf := Memory.write s.buf i b, len := i + 1, acc := a }
      { t with buf := Memory.write t.buf i b, len := i + 1, acc := a } :=
  { h with
    len := rfl
    acc := fun _ => rfl
    size := by simp [h.size]
    buf := fun j hj => by
      rw [memory_read_write hsize, memory_read_write (h.size ▸ hsize)]
      split
      · rfl
      · exact hbuf j (Nat.lt_of_le_of_ne (Nat.le_of_lt_succ hj) ‹_›) }

end

/-! ### Deliveries -/

/-- The entry that `sessionRow` selects, and for the send that PV is set. -/
theorem sessionRow_ok {α : Type} {rows : SessionRows α} {ss : BitVec 2} {d : Delivery} {pv : Bool} {r : α}
    (h : sessionRow rows ss d pv = .ok r) :
    r = rows.hssStx ∨ r = rows.hssDle ∨ r = rows.hssIgn d ∨ r = rows.hscDle ∨ r = rows.hscRej d ∨
      r = rows.logStxPend ∨ r = rows.logStxIdle ∨ (r = rows.logDleSend ∧ pv = true) ∨ r = rows.logDleNop ∨
      r = rows.logData d := by
  unfold sessionRow at h
  cases hs : SessionState.ofCode ss with
  | none => simp [hs] at h
  | some x =>
    rw [hs] at h
    cases x with
    | handshakeStart => cases hd : d.kind <;> simp [hd] at h <;> simp [h]
    | handshakeConfirm => cases hd : d.kind <;> simp [hd] at h <;> simp [h]
    | logging => cases hd : d.kind <;> cases pv <;> simp [hd] at h <;> simp [h]

section
variable {s t : State} (h : SameLive s t)
include h

/-- PBUF is transmitted only where PV = 1, where it agrees. -/
theorem sameLive_dleSend (hpv : s.pv = true) : SameLiveResult (execScLogDleSend s) (execScLogDleSend t) := by
  have hpbuf : pendingBytes s = pendingBytes t := congrArg Vector.toList (h.pbuf hpv)
  rw [execScLogDleSend, execScLogDleSend, hpbuf]
  exact sameLive_setSs (sameLive_clearPending (sameLive_emit h _)) .handshakeStart

/-- A delivery selects the same session row in both states, and the row keeps the agreement. -/
theorem sameLive_deliver (d : Delivery) : SameLiveResult (deliver d s) (deliver d t) := by
  rw [deliver, deliver, ← h.ss, ← h.pv]
  cases hrow : sessionRow meaningRows s.ss d s.pv with
  | error e => rfl
  | ok row =>
    rcases sessionRow_ok hrow with rfl | rfl | rfl | rfl | rfl | rfl | rfl | ⟨rfl, hpv⟩ | rfl | rfl
    · exact sameLive_emit h _
    · show SameLive (setSs .handshakeConfirm (transmit s.cfg.logCmd s)) (setSs .handshakeConfirm (transmit t.cfg.logCmd t))
      rw [h.cfg]
      exact sameLive_setSs (sameLive_emit h _) .handshakeConfirm
    · exact h
    · exact sameLive_setSs h .logging
    · exact sameLive_diag (sameLive_setSs h .handshakeStart) .handshakeRejection
    · exact sameLive_emit h _
    · exact sameLive_emit h _
    · exact sameLive_dleSend h hpv
    · exact sameLive_diag h .unexpectedDle
    · exact sameLive_emit (sameLive_emit h _) _

end

/-! ### Receiver rows -/

/-- The receiver rows of each FrameState. -/
inductive ReceiverRowIn : FrameState → Instr → Prop where
  | resyncStx : ReceiverRowIn .resync .rxResyncStx
  | resyncDiscard (b : Byte) : ReceiverRowIn .resync (.rxResyncDiscard b)
  | idleStx : ReceiverRowIn .idle .rxIdleStx
  | idleDle : ReceiverRowIn .idle .rxIdleDle
  | idleNak : ReceiverRowIn .idle .rxIdleNak
  | idleStart (b : Byte) : ReceiverRowIn .idle (.rxIdleStart b)
  | collDle : ReceiverRowIn .collecting .rxCollDle
  | collAppend (b : Byte) : ReceiverRowIn .collecting (.rxCollAppend b)
  | collOvf (b : Byte) : ReceiverRowIn .collecting (.rxCollOvf b)
  | dlesLit : ReceiverRowIn .dleSeen .rxDlesLit
  | dlesOvf : ReceiverRowIn .dleSeen .rxDlesOvf
  | dlesEtx : ReceiverRowIn .dleSeen .rxDlesEtx
  | dlesErr (b : Byte) : ReceiverRowIn .dleSeen (.rxDlesErr b)
  | bccOk (b : Byte) : ReceiverRowIn .verifyBcc (.rxBccOk b)
  | bccBad (b : Byte) : ReceiverRowIn .verifyBcc (.rxBccBad b)

/-- The row that FS and a byte select is one of FS's rows. -/
theorem receiverRow_ok {fs : BitVec 3} {b : Byte} {r : Room} {z : Bool} {i : Instr} (h : receiverRow fs b r z = .ok i) :
    ∃ f, FrameState.ofCode fs = some f ∧ ReceiverRowIn f i := by
  unfold receiverRow at h
  cases hf : FrameState.ofCode fs with
  | none => simp [hf] at h
  | some f =>
    refine ⟨f, rfl, ?_⟩
    rw [hf] at h
    cases f with
    | resync => dsimp only at h; split_ifs at h <;> cases h <;> constructor
    | idle => dsimp only at h; split_ifs at h <;> cases h <;> constructor
    | collecting => cases r <;> dsimp only at h <;> split_ifs at h <;> cases h <;> constructor
    | dleSeen => cases r <;> dsimp only at h <;> split_ifs at h <;> cases h <;> constructor
    | verifyBcc => dsimp only at h; split_ifs at h <;> cases h <;> constructor

/-- The checksum guard is read in VERIFY_BCC alone. -/
theorem receiverRow_sumZero {fs : BitVec 3} (hf : FrameState.ofCode fs ≠ some .verifyBcc) (b : Byte) (r : Room)
    (z z' : Bool) : receiverRow fs b r z = receiverRow fs b r z' := by
  unfold receiverRow
  split
  case h_6 h => exact absurd h hf
  all_goals rfl

section
variable {s t : State} (h : SameLive s t)
include h

theorem sameLive_reservedCode : reservedCode s = reservedCode t := by
  rw [reservedCode, reservedCode, h.fs, h.ss]

theorem sameLive_room : room s = room t := by
  rw [room, room, h.len, h.cfg]

theorem sameLive_heldBlock : heldBlock s = heldBlock t := by
  rw [heldBlock, heldBlock, ← h.len]
  exact memory_firstBytes_congr h.size h.buf

/-- Every event selects the same row in both states: ACC is read by the checksum guard alone, where it is live. -/
theorem sameLive_rowOf (e : Event) : rowOf s e = rowOf t e := by
  cases e with
  | rxb b =>
    rw [rowOf, rowOf, stepWord, stepWord, decode_receiverWord, decode_receiverWord, ← h.fs, ← sameLive_room h]
    by_cases hv : FrameState.ofCode s.fs = some .verifyBcc
    · rw [sumZero, sumZero, h.acc (.inr (.inr hv))]
    · exact receiverRow_sumZero hv b (room s) _ _
  | rxt => rfl
  | req p => rw [rowOf, rowOf, stepWord, stepWord, h.pv, h.cfg]
  | rst => rfl

/-- The first byte of a block goes to index 0 and into ACC (R126). -/
theorem sameLive_start (b : Byte) : SameLiveResult (execRxIdleStart b s) (execRxIdleStart b t) := by
  rw [execRxIdleStart, execRxIdleStart]
  rcases Nat.eq_zero_or_pos s.buf.length with h0 | h0
  · rw [bufWrite_outside h0.le, bufWrite_outside (h.size ▸ h0.le)]
    rfl
  · rw [bufWrite_inside h0, bufWrite_inside (h.size ▸ h0)]
    exact sameLive_setFs (sameLive_store h h0 (fun _ hj => absurd hj (Nat.not_lt_zero _)) b b) .collecting rfl

/-- Where the ACCs agree, a stored byte keeps the agreement, and leaves the ACCs equal (R128, R130). -/
theorem sameLive_appendByte (hacc : s.acc = t.acc) (b : Byte) :
    (∃ u v, appendByte b s = .next u ∧ appendByte b t = .next v ∧ SameLive u v ∧ u.acc = v.acc) ∨
      ∃ f, appendByte b s = .fault f ∧ appendByte b t = .fault f := by
  rcases Nat.lt_or_ge s.len s.buf.length with hlt | hge
  · refine .inl ⟨_, _, appendByte_room hlt b, appendByte_room (h.len ▸ h.size ▸ hlt) b, ?_, congrArg (· ^^^ b) hacc⟩
    rw [← h.len, ← hacc]
    exact sameLive_store h hlt h.buf b (s.acc ^^^ b)
  · refine .inr ⟨_, appendByte_full hge b, ?_⟩
    rw [appendByte_full (h.len ▸ h.size ▸ hge) b, h.len]

/-- A row of the FrameState that both states are in keeps their agreement. -/
theorem sameLive_receiverRow {f : FrameState} {i : Instr} (hf : FrameState.ofCode s.fs = some f)
    (hi : ReceiverRowIn f i) : SameLiveResult (exec i s) (exec i t) := by
  cases hi with
  | resyncStx => exact sameLive_deliver (sameLive_toIdle h) .stx
  | resyncDiscard _ => exact h
  | idleStx => exact sameLive_deliver h .stx
  | idleDle => exact sameLive_deliver h .dle
  | idleNak => exact sameLive_deliver h .nak
  | idleStart b => exact sameLive_start h b
  | collDle => exact sameLive_foldAcc h (h.acc (.inl hf)) DLE .dleSeen
  | collAppend b =>
    show SameLiveResult (appendByte b s) (appendByte b t)
    rcases sameLive_appendByte h (h.acc (.inl hf)) b with ⟨u, v, hu, hv, huv, -⟩ | ⟨e, hs, ht⟩
    · rw [hu, hv]; exact huv
    · rw [hs, ht]; rfl
  | collOvf _ => exact sameLive_abandonBlock h .oversizedBlock
  | dlesLit =>
    show SameLiveResult (execRxDlesLit s) (execRxDlesLit t)
    rw [execRxDlesLit, execRxDlesLit]
    rcases sameLive_appendByte h (h.acc (.inr (.inl hf))) DLE with ⟨u, v, hu, hv, huv, hacc⟩ | ⟨e, hs, ht⟩
    · rw [hu, hv]; exact sameLive_setFs huv .collecting hacc
    · rw [hs, ht]; rfl
  | dlesOvf => exact sameLive_abandonBlock h .oversizedBlock
  | dlesEtx => exact sameLive_foldAcc h (h.acc (.inr (.inl hf))) ETX .verifyBcc
  | dlesErr _ => exact sameLive_abandonBlock h .unexpectedAfterEscape
  | bccOk b =>
    show SameLiveResult (execRxBccOk b s) (execRxBccOk b t)
    rw [execRxBccOk, execRxBccOk, ← sameLive_heldBlock h]
    cases heldBlock s with
    | none => exact congrArg Fault.bufIndex h.size
    | some blk => exact sameLive_deliver (sameLive_endBlock h (.inr rfl) _ _) (.data blk b)
  | bccBad b =>
    exact sameLive_emit (sameLive_diag (sameLive_endBlock h (.inr rfl) _ _) .checksumMismatch) _

/-- The row that the next event selects keeps the agreement of the two states. -/
theorem sameLive_exec {e : Event} {i : Instr} (hi : rowOf s e = .ok i) : SameLiveResult (exec i s) (exec i t) := by
  cases e with
  | rxb b =>
    rw [rowOf, stepWord, decode_receiverWord] at hi
    obtain ⟨f, hf, hrow⟩ := receiverRow_ok hi
    exact sameLive_receiverRow h hf hrow
  | rxt => cases hi; exact h
  | req p =>
    have hreq : requestRow p s.pv s.cfg.pendPolicy = i := Except.ok.inj hi
    unfold requestRow at hreq
    split at hreq
    · split at hreq <;> cases hreq
      · exact sameLive_diag (sameLive_emit h _) .slotBusy
      · exact sameLive_emit (sameLive_loadPending h p) _
    · cases hreq
      exact sameLive_emit (sameLive_loadPending h p) _
  | rst => cases hi; exact sameLive_applyReset h

end

/-- Settles O58: both states stop alike, and otherwise the next event selects one row in both, which keeps the agreement. -/
theorem deadStateIsNeverObserved : Obligations.DeadStateIsNeverObserved := by
  intro s t h
  cases hc : reservedCode s with
  | some f =>
    rw [step_reserved hc, step_reserved (sameLive_reservedCode h ▸ hc)]
    rfl
  | none =>
    have hct : reservedCode t = none := sameLive_reservedCode h ▸ hc
    cases hin : s.input with
    | nil =>
      rw [step_no_event hc hin, step_no_event hct (h.input ▸ hin)]
      exact h
    | cons e rest =>
      have hint : t.input = e :: rest := h.input ▸ hin
      cases hi : rowOf s e with
      | error err =>
        rw [step_no_row hc hin hi, step_no_row hct hint (sameLive_rowOf h e ▸ hi)]
        rfl
      | ok i =>
        rw [step_event hc hin hi, step_event hct hint (sameLive_rowOf h e ▸ hi)]
        exact sameLive_exec (sameLive_input h rest) ((rowOf_input s rest e).trans hi)

end Sys2Proof.Machine
end

/-! ### BUF and the rows that use it (20_memory.md R50, R53, R56) -/

section
namespace Sys2Proof.Machine

/-- Where a step stores its byte, if it stores one: index 0 begins a block (R126), index LEN extends one (R128, R130). -/
def storeIndex (s : State) : Nat := if s.fs = FrameState.idle.code then 0 else s.len

theorem storeIndex_idle {s : State} (h : s.fs = FrameState.idle.code) : storeIndex s = 0 := if_pos h

theorem storeIndex_inBlock {s : State} (h : s.fs ≠ FrameState.idle.code) : storeIndex s = s.len := if_neg h

theorem delivered_buf {u t : State} {d : Delivery} (h : Delivered u d t) : t.buf = u.buf := by
  obtain ⟨x, pv, l, rfl, -⟩ := delivered_writes h
  rfl

/-- BUF is as before, has one byte stored, or was reset: RX.IDLE.START, RX.COLL.APPEND and RX.DLES.LIT are the rows that
store. -/
theorem stepEffect_buf {s t : State} (h : StepEffect s t) :
    t.buf = s.buf ∨ (∃ b, t.buf = Memory.write s.buf (storeIndex s) b) ∨ s.input.head? = some .rst := by
  cases h with
  | start b _ hf _ _ => exact .inr (.inl ⟨b, by rw [storeIndex_idle hf]⟩)
  | append b _ hf _ _ _ => exact .inr (.inl ⟨b, by rw [storeIndex_inBlock (hf ▸ by decide)]⟩)
  | lit _ hf _ _ => exact .inr (.inl ⟨DLE, by rw [storeIndex_inBlock (hf ▸ by decide)]⟩)
  | resyncStx _ _ hd => exact .inl (delivered_buf hd :)
  | idleStx _ _ hd => exact .inl (delivered_buf hd :)
  | idleDle _ _ hd => exact .inl (delivered_buf hd :)
  | idleNak _ _ hd => exact .inl (delivered_buf hd :)
  | bccOk _ _ _ _ _ _ hd => exact .inl (delivered_buf hd :)
  | rst hin => exact .inr (.inr (by rw [hin]; rfl))
  | _ => exact .inl rfl

/-- Settles O50: a step that is no reset leaves BUF or writes it at `storeIndex`, and every other index reads as before. -/
theorem bufChangesOnlyWhereAByteIsStored : Obligations.BufChangesOnlyWhereAByteIsStored := by
  intro s t j h hrst hj
  rcases stepEffect_buf (step_effect h) with hbuf | ⟨b, hbuf⟩ | hin
  · rw [hbuf]
  · rw [hbuf]
    exact memory_read_write_other s.buf b hj
  · exact absurd hin hrst

/-! ### Where the receiver rows stop (R50, 10_state.md R34) -/

/-- 0b11 is the one reserved SS code (R22). -/
theorem sessionState_ofCode_eq_none_iff (c : BitVec 2) : SessionState.ofCode c = none ↔ c = 0b11#2 := by
  revert c; decide

/-- A row that stops on the reserved SS and completes on every other. -/
def StopsOnReservedSession (r : Result) (s : State) : Prop :=
  (s.ss = 0b11#2 → r = .fault .reservedSessionState) ∧ (s.ss ≠ 0b11#2 → ∃ t, r = .next t)

theorem deliver_stopsOnReservedSession (d : Delivery) (s : State) : StopsOnReservedSession (deliver d s) s := by
  constructor
  · intro hss
    exact deliver_reserved ((sessionState_ofCode_eq_none_iff s.ss).2 hss) d
  · intro hss
    have hlegal : (SessionState.ofCode s.ss).isSome = true :=
      Option.isSome_iff_ne_none.2 (mt (sessionState_ofCode_eq_none_iff s.ss).1 hss)
    obtain ⟨t, ht, -⟩ := deliver_delivered hlegal d
    exact ⟨t, ht⟩

/-- The rows that neither deliver nor store complete in every state. -/
theorem plainReceiverRows_complete (s : State) (b : Byte) :
    ∀ i ∈ [Instr.rxResyncDiscard b, .rxCollDle, .rxCollOvf b, .rxDlesOvf, .rxDlesEtx, .rxDlesErr b, .rxBccBad b],
      ∃ t, exec i s = .next t := by
  simp only [List.forall_mem_cons]
  exact ⟨⟨_, rfl⟩, ⟨_, rfl⟩, ⟨_, rfl⟩, ⟨_, rfl⟩, ⟨_, rfl⟩, ⟨_, rfl⟩, ⟨_, rfl⟩, nofun⟩

/-- The rows that deliver a control byte; ending RESYNC leaves SS. -/
theorem controlByteRows_stopOnReservedSession (s : State) :
    ∀ i ∈ [Instr.rxResyncStx, .rxIdleStx, .rxIdleDle, .rxIdleNak], StopsOnReservedSession (exec i s) s := by
  simp only [List.forall_mem_cons]
  exact ⟨deliver_stopsOnReservedSession .stx (setFs .idle s), deliver_stopsOnReservedSession .stx s,
    deliver_stopsOnReservedSession .dle s, deliver_stopsOnReservedSession .nak s, nofun⟩

theorem execRxIdleStart_outside {s : State} (h : s.buf.length = 0) (b : Byte) :
    execRxIdleStart b s = .fault (.bufIndex 0) := by
  rw [execRxIdleStart, bufWrite_outside h.le, andThen_fault]

theorem execRxIdleStart_inside {s : State} (h : 0 < s.buf.length) (b : Byte) : ∃ t, execRxIdleStart b s = .next t := by
  rw [execRxIdleStart, bufWrite_inside h, andThen_next]
  exact ⟨_, rfl⟩

/-- The rows that append stop exactly where BUF has no element LEN. -/
theorem appendingRows_stopAtSize (s : State) (b : Byte) :
    ∀ i ∈ [Instr.rxCollAppend b, .rxDlesLit],
      (s.buf.length ≤ s.len → exec i s = .fault (.bufIndex s.len)) ∧
      (s.len < s.buf.length → ∃ t, exec i s = .next t) := by
  simp only [List.forall_mem_cons, exec, execRxCollAppend, execRxDlesLit]
  refine ⟨⟨fun h => appendByte_full h b, fun h => ⟨_, appendByte_room h b⟩⟩, ⟨?_, ?_⟩, nofun⟩
  · intro h
    rw [appendByte_full h, andThen_fault]
  · intro h
    rw [appendByte_room h, andThen_next]
    exact ⟨_, rfl⟩

theorem execRxBccOk_outside {s : State} (h : s.buf.length < s.len) (b : Byte) :
    execRxBccOk b s = .fault (.bufIndex s.buf.length) := by
  rw [execRxBccOk, heldBlock, memory_firstBytes_outside h]

/-- The receiver's own writes before the delivery leave SS. -/
theorem execRxBccOk_stopsOnReservedSession {s : State} (h : s.len ≤ s.buf.length) (b : Byte) :
    StopsOnReservedSession (execRxBccOk b s) s := by
  rw [execRxBccOk, heldBlock, memory_firstBytes_inside h]
  exact deliver_stopsOnReservedSession _ (setFs .idle { s with acc := s.acc ^^^ b, len := 0 })

/-- Settles O21: each row is one that only writes, delivers, stores, or reads the block and then delivers. -/
theorem receiverRowsStopOnlyHere : Obligations.ReceiverRowsStopOnlyHere := fun s b =>
  ⟨plainReceiverRows_complete s b, controlByteRows_stopOnReservedSession s, (execRxIdleStart_outside · b),
    (execRxIdleStart_inside · b), appendingRows_stopAtSize s b, (execRxBccOk_outside · b),
    (execRxBccOk_stopsOnReservedSession · b)⟩

/-! ### The register address of a decoder model (R53) -/

/-- The first of two joined bytes is the more significant. -/
theorem toNat_append_bytes (a b : Byte) : (a ++ b).toNat = a.toNat * 256 + b.toNat := by
  rw [BitVec.toNat_append, ← Nat.shiftLeft_add_eq_or_of_lt b.isLt, Nat.shiftLeft_eq]

/-- Settles O59: the address is the block's first two bytes, joined. -/
theorem registerAddressHasTheFirstByteHigh : Obligations.RegisterAddressHasTheFirstByteHigh :=
  fun a b _ => ⟨a ++ b, rfl, toNat_append_bytes a b⟩

end Sys2Proof.Machine
end

/-! ### The row that a step word selects (30_encoding.md R86) -/

section
namespace Sys2Proof

/-- The RW rows of R86: FrameState, byte and guards, and the row that they select. -/
inductive ReceiverSelects : FrameState → Byte → Room → Bool → Instr → Prop where
  | resyncStx (r : Room) (z : Bool) : ReceiverSelects .resync STX r z .rxResyncStx
  | resyncDiscard {b : Byte} (r : Room) (z : Bool) (hb : b ≠ STX) : ReceiverSelects .resync b r z (.rxResyncDiscard b)
  | idleStx (r : Room) (z : Bool) : ReceiverSelects .idle STX r z .rxIdleStx
  | idleDle (r : Room) (z : Bool) : ReceiverSelects .idle DLE r z .rxIdleDle
  | idleNak (r : Room) (z : Bool) : ReceiverSelects .idle NAK r z .rxIdleNak
  | idleStart {b : Byte} (r : Room) (z : Bool) (hs : b ≠ STX) (hd : b ≠ DLE) (hn : b ≠ NAK) :
      ReceiverSelects .idle b r z (.rxIdleStart b)
  | collDle (r : Room) (z : Bool) : ReceiverSelects .collecting DLE r z .rxCollDle
  | collAppend {b : Byte} (z : Bool) (hb : b ≠ DLE) : ReceiverSelects .collecting b .left z (.rxCollAppend b)
  | collOvf {b : Byte} (z : Bool) (hb : b ≠ DLE) : ReceiverSelects .collecting b .full z (.rxCollOvf b)
  | dlesLit (z : Bool) : ReceiverSelects .dleSeen DLE .left z .rxDlesLit
  | dlesOvf (z : Bool) : ReceiverSelects .dleSeen DLE .full z .rxDlesOvf
  | dlesEtx (r : Room) (z : Bool) : ReceiverSelects .dleSeen ETX r z .rxDlesEtx
  | dlesErr {b : Byte} (r : Room) (z : Bool) (hd : b ≠ DLE) (he : b ≠ ETX) :
      ReceiverSelects .dleSeen b r z (.rxDlesErr b)
  | bccOk (b : Byte) (r : Room) : ReceiverSelects .verifyBcc b r true (.rxBccOk b)
  | bccBad (b : Byte) (r : Room) : ReceiverSelects .verifyBcc b r false (.rxBccBad b)

/-- The SW rows of R86: SessionState, delivery and PV, and the row that they select. -/
inductive SessionSelects : SessionState → Delivery → Bool → Instr → Prop where
  | hssStx (pv : Bool) : SessionSelects .handshakeStart .stx pv .scHssStx
  | hssDle (pv : Bool) : SessionSelects .handshakeStart .dle pv .scHssDle
  | hssIgn {d : Delivery} (pv : Bool) (hk : d.kind = .nak ∨ d.kind = .data) :
      SessionSelects .handshakeStart d pv (.scHssIgn d)
  | hscDle (pv : Bool) : SessionSelects .handshakeConfirm .dle pv .scHscDle
  | hscRej {d : Delivery} (pv : Bool) (hk : d.kind ≠ .dle) : SessionSelects .handshakeConfirm d pv (.scHscRej d)
  | logStxPend : SessionSelects .logging .stx true .scLogStxPend
  | logStxIdle : SessionSelects .logging .stx false .scLogStxIdle
  | logDleSend : SessionSelects .logging .dle true .scLogDleSend
  | logDleNop : SessionSelects .logging .dle false .scLogDleNop
  | logData {d : Delivery} (pv : Bool) (hk : d.kind = .nak ∨ d.kind = .data) :
      SessionSelects .logging d pv (.scLogData d)

theorem not_mem_ctrl_iff {b : Byte} : b ∉ CTRL ↔ b ≠ STX ∧ b ≠ DLE ∧ b ≠ NAK := by
  simp only [List.mem_cons, List.not_mem_nil, or_false, not_or]

theorem receiverRow_eq_ok_iff {f : FrameState} {b : Byte} {r : Room} {z : Bool} {i : Instr} :
    receiverRow f.code b r z = .ok i ↔ ReceiverSelects f b r z i := by
  constructor
  · intro h
    unfold receiverRow at h
    rw [frameState_ofCode_code] at h
    cases f with
    | resync =>
      dsimp only at h
      split_ifs at h with hb <;> cases h
      · exact hb ▸ .resyncStx r z
      · exact .resyncDiscard r z hb
    | idle =>
      dsimp only at h
      split_ifs at h with hs hd hn <;> cases h
      · exact hs ▸ .idleStx r z
      · exact hd ▸ .idleDle r z
      · exact hn ▸ .idleNak r z
      · exact .idleStart r z hs hd hn
    | collecting =>
      dsimp only at h
      split_ifs at h with hb
      · cases h; exact hb ▸ .collDle r z
      · cases r <;> cases h
        · exact .collAppend z hb
        · exact .collOvf z hb
    | dleSeen =>
      dsimp only at h
      split_ifs at h with hd he
      · subst hd
        cases r <;> cases h
        · exact .dlesLit z
        · exact .dlesOvf z
      · cases h; exact he ▸ .dlesEtx r z
      · cases h; exact .dlesErr r z hd he
    | verifyBcc =>
      cases z <;> cases h
      · exact .bccBad b r
      · exact .bccOk b r
  · intro h
    cases h with
    | resyncDiscard _ _ hb => exact if_neg hb
    | idleStart _ _ hs hd hn => exact (if_neg hs).trans ((if_neg hd).trans (if_neg hn))
    | collAppend _ hb => exact if_neg hb
    | collOvf _ hb => exact if_neg hb
    | dlesErr _ _ hd he => exact (if_neg hd).trans (if_neg he)
    | _ => rfl

theorem sessionRow_eq_ok_iff {x : SessionState} {d : Delivery} {pv : Bool} {i : Instr} :
    sessionRow instrRows x.code d pv = .ok i ↔ SessionSelects x d pv i := by
  constructor
  · intro h
    rw [sessionRow, sessionState_ofCode_code] at h
    cases x with
    | handshakeStart =>
      cases d with
      | stx => cases h; exact .hssStx pv
      | dle => cases h; exact .hssDle pv
      | nak => cases h; exact .hssIgn pv (.inl rfl)
      | data blk bcc => cases h; exact .hssIgn pv (.inr rfl)
    | handshakeConfirm =>
      cases d with
      | stx => cases h; exact .hscRej pv nofun
      | dle => cases h; exact .hscDle pv
      | nak => cases h; exact .hscRej pv nofun
      | data blk bcc => cases h; exact .hscRej pv nofun
    | logging =>
      cases d with
      | stx =>
        cases pv <;> cases h
        · exact .logStxIdle
        · exact .logStxPend
      | dle =>
        cases pv <;> cases h
        · exact .logDleNop
        · exact .logDleSend
      | nak => cases h; exact .logData pv (.inl rfl)
      | data blk bcc => cases h; exact .logData pv (.inr rfl)
  · intro h
    cases h with
    | hssIgn _ hk => rcases hk with hk | hk <;> simp [sessionRow, instrRows, hk]
    | hscRej _ hk =>
      cases d with
      | dle => exact absurd rfl hk
      | _ => rfl
    | logData _ hk => rcases hk with hk | hk <;> simp [sessionRow, instrRows, hk]
    | _ => rfl

/-- A receiver word decodes to the row that its two fields and its guards select. -/
theorem decode_rw_eq_ok_iff {w : BitVec 11} {r : Room} {z : Bool} {i : Instr} :
    decode (.rw w r z) = .ok i ↔ ∃ f b, w = rwWord f.code b ∧ ReceiverSelects f b r z i := by
  constructor
  · intro h
    obtain ⟨f, hf, -⟩ := Machine.receiverRow_ok h
    have hfs : rwFs w = f.code := frameState_code_of_ofCode hf
    refine ⟨f, rwByte w, ?_, ?_⟩
    · rw [← hfs, rwWord_fields]
    · rwa [← receiverRow_eq_ok_iff, ← hfs]
  · rintro ⟨f, b, rfl, hi⟩
    rw [decode, rwFs_rwWord, rwByte_rwWord]
    exact receiverRow_eq_ok_iff.2 hi

/-- The session map is defined on the legal SS codes alone. -/
theorem sessionRow_legal {α : Type} {rows : SessionRows α} {ss : BitVec 2} {d : Delivery} {pv : Bool} {r : α}
    (h : sessionRow rows ss d pv = .ok r) : ∃ x : SessionState, ss = x.code := by
  cases hx : SessionState.ofCode ss with
  | none => rw [sessionRow, hx] at h; cases h
  | some x => exact ⟨x, sessionState_code_of_ofCode hx⟩

/-- A session word decodes to the row that SS, PV and the delivery its operands make select. -/
theorem decode_sw_eq_ok_iff {w : BitVec 5} {blk : List Byte} {bcc : Option Byte} {i : Instr} :
    decode (.sw w blk bcc) = .ok i ↔
      ∃ x d pv, StepWord.sw w blk bcc = encodeSw x d pv ∧ d.wf = true ∧ SessionSelects x d pv i := by
  constructor
  · intro h
    rw [decode] at h
    cases hd : deliveryOf (Kind.ofCode (swKind w)) blk bcc with
    | none => rw [hd] at h; cases h
    | some d =>
      rw [hd] at h
      obtain ⟨x, hx⟩ := sessionRow_legal h
      obtain ⟨hkind, rfl, rfl, hwf⟩ := deliveryOf_some hd
      refine ⟨x, d, swPv w, ?_, hwf, ?_⟩
      · rw [encodeSw, hkind, kind_code_ofCode, ← hx, swWord_fields]
      · rwa [← sessionRow_eq_ok_iff, ← hx]
  · rintro ⟨x, d, pv, hw, hd, hi⟩
    cases hw
    rw [decode, swKind_swWord, kind_ofCode_code, deliveryOf_operands hd, swSs_swWord, swPv_swWord]
    exact sessionRow_eq_ok_iff.2 hi

/-! ### Decoding an encoding (R84, R86) -/

theorem decode_encodeRw {f : FrameState} {b : Byte} {r : Room} {z : Bool} {i : Instr} (h : ReceiverSelects f b r z i) :
    decode (encodeRw f b r z) = .ok i :=
  decode_rw_eq_ok_iff.2 ⟨f, b, rfl, h⟩

theorem decode_encodeSw {x : SessionState} {d : Delivery} {pv : Bool} {i : Instr} (hd : d.wf = true)
    (h : SessionSelects x d pv i) : decode (encodeSw x d pv) = .ok i :=
  decode_sw_eq_ok_iff.2 ⟨x, d, pv, rfl, hd, h⟩

/-- A payload that is neither empty nor one control byte selects the framing row (R82). -/
theorem encoderRow_of_framed {p : List Byte} (h : (Instr.txFrame p).wf = true) : encoderRow p = .txFrame p := by
  match p, h with
  | [], h => cases h
  | [c], h => exact if_neg (of_decide_eq_true h)
  | _ :: _ :: _, _ => rfl

/-- Settles O6: the encoder's word for each row has fields that select the row, by the operand conditions of its
well-formedness where it has any. -/
theorem decodeOfEncode : Obligations.DecodeOfEncode := by
  intro i hwf
  cases i with
  | rxResyncStx => exact decode_encodeRw (.resyncStx _ _)
  | rxResyncDiscard b => exact decode_encodeRw (.resyncDiscard _ _ (bne_iff_ne.1 hwf))
  | rxIdleStx => exact decode_encodeRw (.idleStx _ _)
  | rxIdleDle => exact decode_encodeRw (.idleDle _ _)
  | rxIdleNak => exact decode_encodeRw (.idleNak _ _)
  | rxIdleStart b =>
    obtain ⟨hs, hd, hn⟩ := not_mem_ctrl_iff.1 (of_decide_eq_true hwf)
    exact decode_encodeRw (.idleStart _ _ hs hd hn)
  | rxCollDle => exact decode_encodeRw (.collDle _ _)
  | rxCollAppend b => exact decode_encodeRw (.collAppend _ (bne_iff_ne.1 hwf))
  | rxCollOvf b => exact decode_encodeRw (.collOvf _ (bne_iff_ne.1 hwf))
  | rxDlesLit => exact decode_encodeRw (.dlesLit _)
  | rxDlesOvf => exact decode_encodeRw (.dlesOvf _)
  | rxDlesEtx => exact decode_encodeRw (.dlesEtx _ _)
  | rxDlesErr b =>
    obtain ⟨hd, he⟩ : b ≠ DLE ∧ b ≠ ETX := by simpa [Instr.wf] using hwf
    exact decode_encodeRw (.dlesErr _ _ hd he)
  | rxBccOk b => exact decode_encodeRw (.bccOk b _)
  | rxBccBad b => exact decode_encodeRw (.bccBad b _)
  | scHssStx => exact decode_encodeSw rfl (.hssStx _)
  | scHssDle => exact decode_encodeSw rfl (.hssDle _)
  | scHssIgn d =>
    obtain ⟨hk, hd⟩ : (d.kind = .nak ∨ d.kind = .data) ∧ d.wf = true := by simpa [Instr.wf] using hwf
    exact decode_encodeSw hd (.hssIgn _ hk)
  | scHscDle => exact decode_encodeSw rfl (.hscDle _)
  | scHscRej d =>
    obtain ⟨hk, hd⟩ : d.kind ≠ .dle ∧ d.wf = true := by simpa [Instr.wf] using hwf
    exact decode_encodeSw hd (.hscRej _ hk)
  | scLogStxPend => exact decode_encodeSw rfl .logStxPend
  | scLogStxIdle => exact decode_encodeSw rfl .logStxIdle
  | scLogDleSend => exact decode_encodeSw rfl .logDleSend
  | scLogDleNop => exact decode_encodeSw rfl .logDleNop
  | scLogData d =>
    obtain ⟨hk, hd⟩ : (d.kind = .nak ∨ d.kind = .data) ∧ d.wf = true := by simpa [Instr.wf] using hwf
    exact decode_encodeSw hd (.logData _ hk)
  | txNone => rfl
  | txCtrl c => exact congrArg Except.ok (if_pos (of_decide_eq_true hwf))
  | txFrame p => exact congrArg Except.ok (encoderRow_of_framed hwf)
  | evRxt => rfl
  | evReqAccept p => rfl
  | evReqBusy p => rfl
  | evReqOverwrite p => rfl
  | evRst => rfl

/-! ### What the decoder makes (R82, R86) -/

theorem receiverSelects_wf {f : FrameState} {b : Byte} {r : Room} {z : Bool} {i : Instr}
    (h : ReceiverSelects f b r z i) : i.wf = true := by
  cases h with
  | resyncDiscard _ _ hb => exact bne_iff_ne.2 hb
  | idleStart _ _ hs hd hn => exact decide_eq_true (not_mem_ctrl_iff.2 ⟨hs, hd, hn⟩)
  | collAppend _ hb => exact bne_iff_ne.2 hb
  | collOvf _ hb => exact bne_iff_ne.2 hb
  | dlesErr _ _ hd he => simpa [Instr.wf] using And.intro hd he
  | _ => rfl

theorem sessionSelects_wf {x : SessionState} {d : Delivery} {pv : Bool} {i : Instr} (hd : d.wf = true)
    (h : SessionSelects x d pv i) : i.wf = true := by
  cases h with
  | hssIgn _ hk => simpa [Instr.wf, hd] using hk
  | hscRej _ hk => simpa [Instr.wf, hd] using hk
  | logData _ hk => simpa [Instr.wf, hd] using hk
  | _ => rfl

theorem encoderRow_wf (p : List Byte) : (encoderRow p).wf = true := by
  match p with
  | [] => rfl
  | [c] =>
    rw [encoderRow]
    split_ifs with hc
    · exact decide_eq_true hc
    · exact decide_eq_true hc
  | _ :: _ :: _ => rfl

theorem requestRow_wf (p : Payload) (pv : Bool) (policy : PendPolicy) : (requestRow p pv policy).wf = true := by
  cases pv with
  | false => rfl
  | true => cases policy <;> rfl

/-- Settles O7: format by format. -/
theorem decodedRowsAreWellFormed : Obligations.DecodedRowsAreWellFormed := by
  intro w i h
  cases w with
  | rw w r z =>
    obtain ⟨_, _, -, hi⟩ := decode_rw_eq_ok_iff.1 h
    exact receiverSelects_wf hi
  | sw w blk bcc =>
    obtain ⟨_, _, _, -, hd, hi⟩ := decode_sw_eq_ok_iff.1 h
    exact sessionSelects_wf hd hi
  | txc p => cases h; exact encoderRow_wf p
  | rxt => cases h; rfl
  | req p pv policy => cases h; exact requestRow_wf p pv policy
  | rst => cases h; rfl

/-! ### Encoding a decoded row (R80 to R83) -/

/-- The LEN guard is part of a row for a byte other than DLE in COLLECTING and for a DLE in DLE_SEEN. -/
def RoomIsGuard (f : FrameState) (b : Byte) : Prop :=
  (f = .collecting ∧ b ≠ DLE) ∨ (f = .dleSeen ∧ b = DLE)

theorem receiverSelects_encode {f : FrameState} {b : Byte} {r : Room} {z : Bool} {i : Instr}
    (h : ReceiverSelects f b r z i) :
    ∃ r' z', encode i = encodeRw f b r' z' ∧ (RoomIsGuard f b → r' = r) ∧ (f = .verifyBcc → z' = z) := by
  cases h with
  | collAppend => exact ⟨.left, true, rfl, fun _ => rfl, nofun⟩
  | collOvf => exact ⟨.full, true, rfl, fun _ => rfl, nofun⟩
  | dlesLit => exact ⟨.left, true, rfl, fun _ => rfl, nofun⟩
  | dlesOvf => exact ⟨.full, true, rfl, fun _ => rfl, nofun⟩
  | bccOk => exact ⟨.left, true, rfl, by simp [RoomIsGuard], fun _ => rfl⟩
  | bccBad => exact ⟨.left, false, rfl, by simp [RoomIsGuard], fun _ => rfl⟩
  | dlesEtx => exact ⟨.left, true, rfl, by simp [RoomIsGuard, show ETX ≠ DLE by decide], nofun⟩
  | dlesErr _ _ hd he => exact ⟨.left, true, rfl, by simp [RoomIsGuard, hd], nofun⟩
  | _ => exact ⟨.left, true, rfl, by simp [RoomIsGuard], nofun⟩

/-- PV is part of a row for STX and DLE in LOGGING. -/
theorem sessionSelects_encode {x : SessionState} {d : Delivery} {pv : Bool} {i : Instr} (h : SessionSelects x d pv i) :
    ∃ pv', encode i = encodeSw x d pv' ∧ (x = .logging → d.kind = .stx ∨ d.kind = .dle → pv' = pv) := by
  cases h with
  | logStxPend => exact ⟨true, rfl, fun _ _ => rfl⟩
  | logStxIdle => exact ⟨false, rfl, fun _ _ => rfl⟩
  | logDleSend => exact ⟨true, rfl, fun _ _ => rfl⟩
  | logDleNop => exact ⟨false, rfl, fun _ _ => rfl⟩
  | logData _ hk => exact ⟨false, rfl, fun _ hk' => by rcases hk with hk | hk <;> simp [hk] at hk'⟩
  | _ => exact ⟨false, rfl, nofun⟩

theorem frameState_code_injective : Function.Injective FrameState.code := by
  intro f g h
  simpa using congrArg FrameState.ofCode h

/-- The mask 0x1E leaves out PV alone. -/
theorem swWord_mask_pv (ss k : BitVec 2) (pv pv' : Bool) :
    swWord ss k pv &&& 0x1E#5 = swWord ss k pv' &&& 0x1E#5 := by
  revert ss k pv pv'; decide

/-- The SW words with SS = LOGGING and K = STX or DLE. -/
theorem swWord_logging_stx_or_dle {x : SessionState} {k : Kind} {pv : Bool}
    (h : swWord x.code k.code pv &&& 0x1E#5 = 0x10#5 ∨ swWord x.code k.code pv &&& 0x1E#5 = 0x12#5) :
    x = .logging ∧ (k = .stx ∨ k = .dle) := by
  cases x <;> cases k <;> revert pv <;> decide

theorem encode_encoderRow (p : List Byte) : encode (encoderRow p) = .txc p := by
  match p with
  | [] => rfl
  | [c] =>
    rw [encoderRow]
    split_ifs <;> rfl
  | _ :: _ :: _ => rfl

theorem encode_requestRow (p : Payload) (pv : Bool) (policy : PendPolicy) :
    ∃ policy', encode (requestRow p pv policy) = .req p pv policy' ∧ (pv = true → policy' = policy) := by
  cases pv with
  | false => exact ⟨.reject, rfl, nofun⟩
  | true => cases policy <;> exact ⟨_, rfl, fun _ => rfl⟩

theorem encode_of_decode_rw {w : BitVec 11} {r : Room} {z : Bool} {i : Instr} (h : decode (.rw w r z) = .ok i) :
    ∃ r' z', encode i = .rw w r' z' ∧
      ((rwFs w = 0b010#3 ∧ rwByte w ≠ 0x10#8) ∨ (rwFs w = 0b011#3 ∧ rwByte w = 0x10#8) → r' = r) ∧
      (rwFs w = 0b100#3 → z' = z) := by
  obtain ⟨f, b, rfl, hi⟩ := decode_rw_eq_ok_iff.1 h
  obtain ⟨r', z', henc, hr, hz⟩ := receiverSelects_encode hi
  rw [rwFs_rwWord, rwByte_rwWord]
  refine ⟨r', z', henc, fun hg => hr (hg.imp ?_ ?_), fun hf => hz (frameState_code_injective hf)⟩
  · exact And.imp_left fun hf => frameState_code_injective (a₂ := .collecting) hf
  · exact And.imp_left fun hf => frameState_code_injective (a₂ := .dleSeen) hf

theorem encode_of_decode_sw {w : BitVec 5} {blk : List Byte} {bcc : Option Byte} {i : Instr}
    (h : decode (.sw w blk bcc) = .ok i) :
    ∃ w', encode i = .sw w' blk bcc ∧ w' &&& 0x1E#5 = w &&& 0x1E#5 ∧
      (w &&& 0x1E#5 = 0x10#5 ∨ w &&& 0x1E#5 = 0x12#5 → w' = w) := by
  obtain ⟨x, d, pv, hw, -, hi⟩ := decode_sw_eq_ok_iff.1 h
  cases hw
  obtain ⟨pv', henc, hpv⟩ := sessionSelects_encode hi
  refine ⟨_, henc, swWord_mask_pv .., fun hm => ?_⟩
  obtain ⟨hx, hk⟩ := swWord_logging_stx_or_dle hm
  rw [hpv hx hk]

/-- Settles O8: format by format, the encoder's word for the row that was selected. -/
theorem encodeOfDecodeKeepsWhatTheRowFixes : Obligations.EncodeOfDecodeKeepsWhatTheRowFixes := by
  refine ⟨fun _ _ _ _ h => encode_of_decode_rw h, fun _ _ _ _ h => encode_of_decode_sw h, ?_, ?_⟩
  · intro p i h
    cases h
    exact encode_encoderRow p
  · intro p pv policy i h
    cases h
    exact encode_requestRow p pv policy

/-! ### The decoder and the machine-readable table (R84, R91) -/

/-- Under the full mask a row's match fixes both fields of the word. -/
theorem rwWord_matches_full (fs : BitVec 3) (b : Byte) (v : BitVec 11) :
    (rwWord fs b &&& 0x7FF#11 == v) = (fs == rwFs v && b == rwByte v) := by
  rw [show (0x7FF#11) = BitVec.allOnes 11 from rfl, BitVec.and_allOnes, Bool.eq_iff_iff]
  simp only [beq_iff_eq, Bool.and_eq_true]
  constructor
  · rintro rfl
    simp
  · rintro ⟨rfl, rfl⟩
    exact rwWord_fields v

/-- Under the mask 0x700 it fixes FS alone. -/
theorem rwWord_matches_fs (fs : BitVec 3) (b : Byte) (v : BitVec 11) :
    (rwWord fs b &&& 0x700#11 == v) = (fs == rwFs v && rwByte v == 0x00#8) := by
  have hmask : rwWord fs b &&& 0x700#11 = rwWord fs 0x00#8 := by
    rw [rwWord, rwWord, show (0x700#11) = (0b111#3 ++ 0x00#8 : BitVec 11) from rfl, BitVec.and_append,
      BitVec.and_zero, show (0b111#3) = BitVec.allOnes 3 from rfl, BitVec.and_allOnes]
  rw [hmask, Bool.eq_iff_iff]
  simp only [beq_iff_eq, Bool.and_eq_true]
  constructor
  · rintro rfl
    simp
  · rintro ⟨rfl, hb⟩
    rw [← hb, rwWord_fields]

/-- A row for one byte applies to that byte in its FrameState, where its guard holds. -/
theorem selects_oneByte (name : String) (v : BitVec 11) (g : RwGuard) (fs : BitVec 3) (b : Byte) (r : Room) (z : Bool) :
    RwRow.selects ⟨name, v, 0x7FF#11, [], g⟩ (rwWord fs b) r z =
      ((fs == rwFs v && b == rwByte v) && g.holds r z) := by
  simp [RwRow.selects, rwWord_matches_full]

/-- A row for the other bytes applies in its FrameState to each byte that it does not exclude, where its guard holds. -/
theorem selects_otherBytes (name : String) (v : BitVec 11) (ex : List Byte) (g : RwGuard) (fs : BitVec 3) (b : Byte)
    (r : Room) (z : Bool) :
    RwRow.selects ⟨name, v, 0x700#11, ex, g⟩ (rwWord fs b) r z =
      ((fs == rwFs v && rwByte v == 0x00#8) && !ex.contains b && g.holds r z) := by
  rw [RwRow.selects, rwWord_matches_fs, rwByte_rwWord]

/-- In each case the rows of the other FrameStates fall out by FS, and those of its own, all but the selected one, by their
byte, their excluded bytes or their guard. -/
theorem receiverSelects_table {f : FrameState} {b : Byte} {r : Room} {z : Bool} {i : Instr}
    (h : ReceiverSelects f b r z i) :
    (rwRows.filter fun row => row.selects (rwWord f.code b) r z).map (fun row => row.mnemonic) = [i.mnemonic] := by
  cases h <;>
    simp [*, rwRows, selects_oneByte, selects_otherBytes, FrameState.code, rwFs, rwByte, RwGuard.holds, Instr.mnemonic,
      STX, DLE, ETX, NAK]

/-- With LEN at most MAX_BLOCK, a legal FS has a row for every byte. -/
theorem receiverRow_total (f : FrameState) (b : Byte) {r : Room} (z : Bool) (hr : r ≠ .beyond) :
    ∃ i, receiverRow f.code b r z = .ok i := by
  unfold receiverRow
  rw [frameState_ofCode_code]
  cases f with
  | resync => dsimp only; split_ifs <;> exact ⟨_, rfl⟩
  | idle => dsimp only; split_ifs <;> exact ⟨_, rfl⟩
  | collecting =>
    cases r with
    | beyond => exact absurd rfl hr
    | _ => dsimp only; split_ifs <;> exact ⟨_, rfl⟩
  | dleSeen =>
    cases r with
    | beyond => exact absurd rfl hr
    | _ => dsimp only; split_ifs <;> exact ⟨_, rfl⟩
  | verifyBcc => dsimp only; split_ifs <;> exact ⟨_, rfl⟩

/-- Settles O9: the decoder gives a row, and the table's rows for the fields and guards that select it are that one. -/
theorem exactlyOneReceiverRowApplies : Obligations.ExactlyOneReceiverRowApplies := by
  intro w r z hfs hr
  obtain ⟨f, hf⟩ := Option.isSome_iff_exists.1 hfs
  have hw : w = rwWord f.code (rwByte w) := by rw [← frameState_code_of_ofCode hf, rwWord_fields]
  obtain ⟨i, hi⟩ := receiverRow_total f (rwByte w) z hr
  have hsel : ReceiverSelects f (rwByte w) r z i := receiverRow_eq_ok_iff.1 hi
  refine ⟨i, decode_rw_eq_ok_iff.2 ⟨f, rwByte w, hw, hsel⟩, ?_⟩
  rw [hw]
  exact receiverSelects_table hsel

/-- The table reads the kind of a delivery alone, so each case is one of a few closed words. -/
theorem sessionSelects_table {x : SessionState} {d : Delivery} {pv : Bool} {i : Instr} (h : SessionSelects x d pv i) :
    (swRows.filter fun row => row.selects (swWord x.code d.kind.code pv)).map (fun row => row.mnemonic) =
      [i.mnemonic] := by
  cases h with
  | hssStx => cases pv <;> rfl
  | hssDle => cases pv <;> rfl
  | hssIgn _ hk => rcases hk with hk | hk <;> rw [hk] <;> cases pv <;> rfl
  | hscDle => cases pv <;> rfl
  | hscRej _ hk =>
    generalize d.kind = k at hk
    cases k with
    | dle => exact absurd rfl hk
    | _ => cases pv <;> rfl
  | logData _ hk => rcases hk with hk | hk <;> rw [hk] <;> cases pv <;> rfl
  | _ => rfl

theorem sessionRow_total (x : SessionState) (d : Delivery) (pv : Bool) :
    ∃ i, sessionRow instrRows x.code d pv = .ok i := by
  cases x <;> cases d <;> cases pv <;> exact ⟨_, rfl⟩

/-- Settles O10: the decoder gives a row, and the table's rows for the fields that select it are that one. The reserved SS is
compared with each row of the table. -/
theorem exactlyOneSessionRowApplies : Obligations.ExactlyOneSessionRowApplies := by
  refine ⟨fun d ss pv hd hss => ?_, by decide⟩
  obtain ⟨x, hx⟩ := Option.ne_none_iff_exists'.1 (mt (Machine.sessionState_ofCode_eq_none_iff ss).1 hss)
  obtain rfl := sessionState_code_of_ofCode hx
  obtain ⟨i, hi⟩ := sessionRow_total x d pv
  have hsel : SessionSelects x d pv i := sessionRow_eq_ok_iff.1 hi
  exact ⟨i, decode_encodeSw hd hsel, sessionSelects_table hsel⟩

/-! ### Step words (R80 to R83, R88) -/

/-- Settles O5: the decoder is run on each word. -/
theorem wordsOfTheTableDecode : Obligations.WordsOfTheTableDecode := by
  unfold Obligations.WordsOfTheTableDecode
  decide

end Sys2Proof

namespace Sys2Proof.Machine

/-- Settles O4: the layouts are the definitions', and the guards are what `room` and `sumZero` say of LEN and ACC. -/
theorem stepWordsCarryStateEventAndGuards : Obligations.StepWordsCarryStateEventAndGuards := fun s =>
  ⟨fun b => ⟨room s, sumZero s b, rfl, room_left_iff s, room_full_iff s, sumZero_iff s b⟩, fun _ => rfl, rfl, rfl,
    fun _ => rfl⟩

end Sys2Proof.Machine
end

/-! ### Frames and stuffing (30_encoding.md R73 to R75) -/

section
namespace Sys2Proof.Machine

theorem stuff_cons_dle (p : List Byte) : stuff (DLE :: p) = DLE :: DLE :: stuff p := if_pos rfl

theorem stuff_cons_other {b : Byte} (h : b ≠ DLE) (p : List Byte) : stuff (b :: p) = b :: stuff p := if_neg h

/-- Settles O32: the checksum cancels what it sums. -/
theorem frameXorsToZero : Obligations.FrameXorsToZero := by
  intro p
  have hframe : frame p = stuff p ++ [DLE, ETX] ++ [frameBcc p] := by rw [frame, List.append_assoc]; rfl
  refine ⟨frameBcc p, hframe, rfl, ?_⟩
  calc xorAll (frame p) = frameBcc p ^^^ xorAll [frameBcc p] := by rw [hframe, xorAll_append, frameBcc]
    _ = 0x00#8 := by rw [xorAll_cons, xorAll_nil, BitVec.xor_zero, BitVec.xor_self]

theorem stuff_length (p : List Byte) : (stuff p).length = p.length + p.count DLE := by
  induction p with
  | nil => rfl
  | cons b p ih =>
    by_cases hb : b = DLE
    · subst hb
      simp only [stuff_cons_dle, List.length_cons, List.count_cons_self, ih]
      omega
    · simp only [stuff_cons_other hb, List.length_cons, List.count_cons_of_ne hb, ih]
      omega

/-- Settles O33: each DLE adds one byte and the frame's end three. -/
theorem frameLengthCountsStuffing : Obligations.FrameLengthCountsStuffing := fun p =>
  ⟨by rw [frame, List.length_append, stuff_length]; rfl, frameBcc p, rfl⟩

theorem stuff_filter_other (p : List Byte) : (stuff p).filter (fun b => b ≠ DLE) = p.filter (fun b => b ≠ DLE) := by
  induction p with
  | nil => rfl
  | cons b p ih =>
    by_cases hb : b = DLE
    · subst hb
      simpa [stuff_cons_dle] using ih
    · simpa [stuff_cons_other hb, hb] using ih

theorem stuff_count_dle (p : List Byte) : (stuff p).count DLE = 2 * p.count DLE := by
  induction p with
  | nil => rfl
  | cons b p ih =>
    by_cases hb : b = DLE
    · subst hb
      simp only [stuff_cons_dle, List.count_cons_self, ih]
      omega
    · rw [stuff_cons_other hb, List.count_cons_of_ne hb, List.count_cons_of_ne hb, ih]

/-- The bytes other than DLE are kept in order, so each is kept as often. -/
theorem stuff_count_other {c : Byte} (hc : c ≠ DLE) (p : List Byte) : (stuff p).count c = p.count c := by
  have hkeep : ∀ l : List Byte, (l.filter fun b => b ≠ DLE).count c = l.count c := fun l =>
    List.count_filter (by simpa using hc)
  rw [← hkeep (stuff p), stuff_filter_other, hkeep]

/-- Settles O34: the pairs stand where `stuff` of the parts puts them. -/
theorem stuffingDoublesOnlyDle : Obligations.StuffingDoublesOnlyDle := fun p =>
  ⟨stuff_filter_other p, fun _ hc => stuff_count_other hc p, stuff_count_dle p,
    fun q => by rw [stuff_append, stuff_append, stuff_single_dle]⟩

end Sys2Proof.Machine
end

/-! ### The encoder (40_codec.md R100 to R104) -/

section
namespace Sys2Proof.Machine

/-- What is left of the payloads when the empty one and the single control bytes are taken away is framed (R82). -/
theorem txFrame_wf {p : List Byte} (hne : p ≠ []) (hctrl : ∀ c, c ∈ CTRL → p ≠ [c]) : (Instr.txFrame p).wf = true := by
  match p with
  | [] => exact absurd rfl hne
  | [c] => exact decide_eq_true fun hc => hctrl c hc rfl
  | _ :: _ :: _ => rfl

theorem encodeBlock_control {c : Byte} (h : c ∈ CTRL) : encodeBlock [c] = [c] := if_pos h

theorem encoderRow_control {c : Byte} (h : c ∈ CTRL) : encoderRow [c] = .txCtrl c := if_pos h

/-- R103's loop appends the stuffed payload and folds it into the running checksum. -/
theorem foldl_loopBody (p : List Byte) (l : FrameLoop) :
    p.foldl loopBody l = { out := l.out ++ stuff p, bcc := l.bcc ^^^ xorAll (stuff p) } := by
  induction p generalizing l with
  | nil => simp
  | cons b p ih =>
    rw [List.foldl_cons, ih]
    by_cases hb : b = DLE
    · simp [loopBody, loopPush, hb, stuff_cons_dle]
    · simp [loopBody, loopPush, hb, stuff_cons_other hb, BitVec.xor_assoc]

theorem frameByLoop_eq_frame (p : List Byte) : frameByLoop p = frame p := by
  simp [frameByLoop, foldl_loopBody, loopPush, frame, frameBcc, BitVec.xor_assoc]

/-- Settles O31: the framed payloads are the ones left by the other two cases, and R103's loop builds the frame. -/
theorem encodeIsWhatTheEncodingLoopBuilds : Obligations.EncodeIsWhatTheEncodingLoopBuilds :=
  ⟨rfl, fun _ hc => encodeBlock_control hc, fun p hne hctrl => by
    rw [frameByLoop_eq_frame, encodeBlock_of_framed (txFrame_wf hne hctrl)]⟩

/-- Settles O30: the row and the encoding are chosen by the same cases of the payload, and each row only emits. -/
theorem encoderRowsTransmitTheirEncoding : Obligations.EncoderRowsTransmitTheirEncoding := by
  refine ⟨⟨rfl, rfl⟩, fun c hc => ?_, fun p hne hctrl => ?_, fun s => ⟨?_, fun _ => rfl, fun _ => rfl⟩⟩
  · exact ⟨congrArg Except.ok (encoderRow_control hc), encodeBlock_control hc⟩
  · have hwf := txFrame_wf hne hctrl
    exact ⟨congrArg Except.ok (encoderRow_of_framed hwf), encodeBlock_of_framed hwf⟩
  · exact congrArg Host.Outcome.next (emit_nil s)

/-! ### The frame of a payload with one more byte in front -/

/-- A byte other than DLE is sent once, so it goes into the checksum. -/
theorem frame_cons_other {c : Byte} (h : c ≠ DLE) (p : List Byte) :
    frame (c :: p) = c :: (stuff p ++ [DLE, ETX, frameBcc p ^^^ c]) := by
  have hbcc : frameBcc (c :: p) = frameBcc p ^^^ c := by
    rw [frameBcc, stuff_cons_other h, List.cons_append, xorAll_cons, BitVec.xor_comm, frameBcc]
  rw [frame, stuff_cons_other h, hbcc, List.cons_append]

/-- A DLE is sent twice, so it cancels out of the checksum. -/
theorem frame_cons_dle (p : List Byte) : frame (DLE :: p) = DLE :: DLE :: frame p := by
  have hbcc : frameBcc (DLE :: p) = frameBcc p := by
    rw [frameBcc, stuff_cons_dle, List.cons_append, List.cons_append, xorAll_cons, xorAll_cons, ← BitVec.xor_assoc,
      BitVec.xor_self, BitVec.zero_xor, frameBcc]
  rw [frame, stuff_cons_dle, hbcc, List.cons_append, List.cons_append, frame]

end Sys2Proof.Machine
end

/-! ### Receiving bytes one after another (00_scope.md R6) -/

section
namespace Sys2Proof.Machine

/-- The bytes `l`, received in `s`, end in `t`, and what comes behind them is read from there. -/
def Receives (l : List Byte) (s t : State) : Prop :=
  ∀ (n : Nat) (rest : List Byte),
    runSteps (l.length + n) (withBytes (l ++ rest) s) = runSteps n (withBytes rest t)

theorem Receives.nil (s : State) : Receives [] s s := fun n rest => by
  rw [List.length_nil, Nat.zero_add, List.nil_append]

theorem Receives.append {l m : List Byte} {s t u : State} (hl : Receives l s t) (hm : Receives m t u) :
    Receives (l ++ m) s u := fun n rest => by
  rw [List.length_append, Nat.add_assoc, List.append_assoc, hl, hm]

theorem Receives.single {b : Byte} {s t : State}
    (h : ∀ rest, step (withBytes (b :: rest) s) = .next (withBytes rest t)) : Receives [b] s t := fun n rest => by
  rw [List.length_singleton, Nat.add_comm, List.singleton_append, runSteps_next (h rest)]

/-- As many steps as there are bytes. -/
theorem Receives.run {l : List Byte} {s t : State} (h : Receives l s t) (rest : List Byte) :
    runSteps l.length (withBytes (l ++ rest) s) = .next (withBytes rest t) := h 0 rest

@[simp] theorem withBytes_nil (s : State) : withBytes [] s = s := rfl

/-- With legal codes, the next of several bytes runs the row that it selects, with the others still to come. -/
theorem step_byte {s : State} {f : FrameState} {b : Byte} {i : Instr} (hf : s.fs = f.code)
    (hs : (SessionState.ofCode s.ss).isSome = true) (hi : ReceiverSelects f b (room s) (sumZero s b) i)
    (rest : List Byte) : step (withBytes (b :: rest) s) = exec i (withBytes rest s) :=
  step_received (s := withBytes (b :: rest) s) hf hs rfl (receiverRow_eq_ok_iff.2 hi)

/-- A byte whose row completes, whatever is still to come. -/
theorem receives_of_row {s t : State} {f : FrameState} {b : Byte} {i : Instr} (hf : s.fs = f.code)
    (hs : (SessionState.ofCode s.ss).isSome = true) (hi : ReceiverSelects f b (room s) (sumZero s b) i)
    (hx : ∀ rest, exec i (withBytes rest s) = .next (withBytes rest t)) : Receives [b] s t :=
  .single fun rest => (step_byte hf hs hi rest).trans (hx rest)

/-- In RESYNC everything but the start byte is passed over (R122). -/
theorem receives_discarded {s : State} (hf : s.fs = FrameState.resync.code)
    (hs : (SessionState.ofCode s.ss).isSome = true) {l : List Byte} (hl : STX ∉ l) : Receives l s s := by
  induction l with
  | nil => exact .nil s
  | cons b l ih =>
    have hb : b ≠ STX := (List.ne_of_not_mem_cons hl).symm
    exact (receives_of_row hf hs (.resyncDiscard _ _ hb) fun _ => rfl).append (ih (List.not_mem_of_not_mem_cons hl))

/-! ### Deliveries as the session row that is decoded (R136, R150) -/

/-- A delivery runs the row that SS, its kind and PV select. -/
theorem deliver_of_selects {x : SessionState} {d : Delivery} {s : State} {row : Instr} (hx : s.ss = x.code)
    (h : SessionSelects x d s.pv row) : deliver d s = exec row s := by
  rw [deliver, hx]
  generalize s.pv = pv at h
  cases h with
  | hssIgn _ hk => rcases hk with hk | hk <;> simp [sessionRow, meaningRows, hk, exec]
  | hscRej _ hk =>
    cases d with
    | dle => exact absurd rfl hk
    | _ => rfl
  | logData _ hk => rcases hk with hk | hk <;> simp [sessionRow, meaningRows, hk, exec]
  | _ => rfl

/-- With SS legal a delivery has its row, which is the row of its session word. -/
theorem sessionWord_selects {s : State} (hs : (SessionState.ofCode s.ss).isSome = true) {d : Delivery}
    (hd : d.wf = true) :
    ∃ x row, s.ss = x.code ∧ SessionSelects x d s.pv row ∧ decode (sessionWord s d) = .ok row := by
  obtain ⟨x, hx⟩ := Option.isSome_iff_exists.1 hs
  have hss := sessionState_code_of_ofCode hx
  obtain ⟨row, hrow⟩ := sessionRow_total x d s.pv
  have hsel := sessionRow_eq_ok_iff.1 hrow
  refine ⟨x, row, hss, hsel, ?_⟩
  rw [sessionWord, hss]
  exact decode_encodeSw hd hsel

/-- The bytes still to come are no concern of a session row. -/
theorem exec_sessionRow_withBytes {x : SessionState} {d : Delivery} {pv : Bool} {row : Instr} {s t : State}
    (hsel : SessionSelects x d pv row) (h : exec row s = .next t) (rest : List Byte) :
    exec row (withBytes rest s) = .next (withBytes rest t) := by
  cases hsel <;> cases h <;> rfl

/-- In IDLE a control byte is its one-byte delivery (R123 to R125). -/
theorem step_controlByte {s : State} {d : Delivery} {c : Byte} (hf : s.fs = FrameState.idle.code)
    (hs : (SessionState.ofCode s.ss).isSome = true) (hd : d.bcc = none) (hc : d.blk = [c]) (rest : List Byte) :
    step (withBytes (c :: rest) s) = deliver d (withBytes rest s) := by
  cases d with
  | stx => cases hc; exact step_byte hf hs (.idleStx _ _) rest
  | dle => cases hc; exact step_byte hf hs (.idleDle _ _) rest
  | nak => cases hc; exact step_byte hf hs (.idleNak _ _) rest
  | data _ _ => cases hd

/-- A delivery with no checksum byte is that of one control byte (R88). -/
theorem controlDelivery_byte {d : Delivery} (hd : d.bcc = none) : d.wf = true ∧ ∃ c ∈ CTRL, d.blk = [c] := by
  cases d with
  | stx => exact ⟨rfl, STX, by decide, rfl⟩
  | dle => exact ⟨rfl, DLE, by decide, rfl⟩
  | nak => exact ⟨rfl, NAK, by decide, rfl⟩
  | data _ _ => cases hd

/-- Received in IDLE, a control byte ends in the session row of its delivery, which completes with the receiver, BUF and the
parameters as they were. -/
theorem receives_controlByte {s : State} {d : Delivery} {c : Byte} (hf : s.fs = FrameState.idle.code)
    (hs : (SessionState.ofCode s.ss).isSome = true) (hd : d.bcc = none) (hc : d.blk = [c]) :
    ∃ row t, decode (sessionWord s d) = .ok row ∧ exec row s = .next t ∧ Receives [c] s t ∧
      t.fs = FrameState.idle.code ∧ (SessionState.ofCode t.ss).isSome = true ∧ t.buf = s.buf ∧ t.cfg = s.cfg := by
  obtain ⟨x, row, hx, hsel, hrow⟩ := sessionWord_selects hs (controlDelivery_byte hd).1
  obtain ⟨t, ht, hdel⟩ := deliver_delivered hs d
  have hexec : exec row s = .next t := (deliver_of_selects hx hsel).symm.trans ht
  have hrecv : Receives [c] s t := .single fun rest => by
    rw [step_controlByte hf hs hd hc, deliver_of_selects (s := withBytes rest s) hx hsel]
    exact exec_sessionRow_withBytes hsel hexec rest
  obtain ⟨y, pv, l, rfl, -⟩ := delivered_writes hdel
  exact ⟨row, _, hrow, hexec, hrecv, hf, by simp, rfl, rfl⟩

/-! ### A receiver that holds a block (10_state.md R24, R25, R137) -/

/-- BUF, of MAX_BLOCK elements, begins with the bytes of `p`. -/
structure BufHolds (s : State) (m : Memory) (p : List Byte) : Prop where
  size  : Memory.wf m s.cfg.maxBlock
  bytes : Memory.firstBytes m p.length = some p

/-- The receiver of `s` with the block `p` in the BUF `m`, after the bytes `stuff p ++ tail` (R137). -/
def inBlock (s : State) (f : FrameState) (m : Memory) (p tail : List Byte) : State :=
  { s with fs := f.code, buf := m, len := p.length, acc := xorAll (stuff p ++ tail) }

theorem bufHolds_append {s : State} {m : Memory} {p : List Byte} (h : BufHolds s m p) (hroom : p.length < s.cfg.maxBlock)
    (c : Byte) : BufHolds s (Memory.write m p.length c) (p ++ [c]) where
  size := memory_write_wf h.size _ _
  bytes := by
    rw [List.length_append, List.length_singleton]
    exact memory_firstBytes_append h.bytes (h.size.symm ▸ hroom) c

/-- A byte folded into ACC and not stored joins the tail (R127, R132). -/
theorem inBlock_fold (s : State) (f g : FrameState) (m : Memory) (p tail : List Byte) (b : Byte) :
    { inBlock s f m p tail with acc := (inBlock s f m p tail).acc ^^^ b, fs := g.code } =
      inBlock s g m p (tail ++ [b]) := by
  simp [inBlock, BitVec.xor_assoc]

/-- A byte stored behind the block joins it, where the tail and the byte are its stuffed form (R128, R130). -/
theorem inBlock_store {s : State} {f : FrameState} {m : Memory} {p tail : List Byte} {c : Byte}
    (hstuff : stuff [c] = tail ++ [c]) :
    { inBlock s f m p tail with
        buf := Memory.write m p.length c, len := p.length + 1, acc := (inBlock s f m p tail).acc ^^^ c,
        fs := FrameState.collecting.code } =
      inBlock s .collecting (Memory.write m p.length c) (p ++ [c]) [] := by
  simp [inBlock, hstuff, BitVec.xor_assoc]

section
variable {s : State} (hs : (SessionState.ofCode s.ss).isSome = true) {m : Memory} {p : List Byte}
include hs

/-- The first byte of a block (R126). -/
theorem receives_firstByte {b : Byte} (hf : s.fs = FrameState.idle.code) (hb : b ∉ CTRL) (hmax : 1 ≤ s.cfg.maxBlock)
    (hbuf : Memory.wf s.buf s.cfg.maxBlock) :
    ∃ m, BufHolds s m [b] ∧ Receives (stuff [b]) s (inBlock s .collecting m [b] []) := by
  obtain ⟨hstx, hdle, hnak⟩ := not_mem_ctrl_iff.1 hb
  have hempty : BufHolds s s.buf [] := ⟨hbuf, if_pos (Nat.zero_le _)⟩
  refine ⟨Memory.write s.buf 0 b, bufHolds_append hempty hmax b, ?_⟩
  rw [stuff_single_other hdle]
  refine receives_of_row hf hs (.idleStart _ _ hstx hdle hnak) fun rest => ?_
  have hwrite := bufWrite_inside (s := withBytes rest s) (i := 0) (hbuf.symm ▸ hmax) b
  simp only [exec, execRxIdleStart, hwrite, andThen_next]
  simp [inBlock, withBytes, setFs, stuff_single_other hdle]

theorem receives_escape :
    Receives [DLE] (inBlock s .collecting m p []) (inBlock s .dleSeen m p [DLE]) :=
  receives_of_row rfl hs (.collDle _ _) fun rest =>
    congrArg (fun u => Host.Outcome.next (withBytes rest u)) (inBlock_fold s .collecting .dleSeen m p [] DLE)

/-- The terminator (R127, R132). -/
theorem receives_terminator :
    Receives [DLE, ETX] (inBlock s .collecting m p []) (inBlock s .verifyBcc m p [DLE, ETX]) :=
  (receives_escape hs).append <| receives_of_row rfl hs (.dlesEtx _ _) fun rest =>
    congrArg (fun u => Host.Outcome.next (withBytes rest u)) (inBlock_fold s .dleSeen .verifyBcc m p [DLE] ETX)

/-- With room left, a byte of the payload is stored, a DLE by its pair (R128, R130). -/
theorem receives_payloadByte (hm : BufHolds s m p) (hroom : p.length < s.cfg.maxBlock) (c : Byte) :
    Receives (stuff [c]) (inBlock s .collecting m p [])
      (inBlock s .collecting (Memory.write m p.length c) (p ++ [c]) []) := by
  have hsize : p.length < m.length := hm.size.symm ▸ hroom
  have hleft {f : FrameState} {tail : List Byte} : room (inBlock s f m p tail) = .left := (room_left_iff _).2 hroom
  have hstore {f : FrameState} {tail : List Byte} (rest : List Byte) :=
    appendByte_room (s := withBytes rest (inBlock s f m p tail)) hsize c
  by_cases hc : c = DLE
  · subst hc
    rw [stuff_single_dle]
    refine (receives_escape hs).append ?_
    refine receives_of_row (i := .rxDlesLit) rfl hs (by rw [hleft]; exact .dlesLit _) fun rest => ?_
    rw [← inBlock_store (s := s) (f := .dleSeen) (m := m) (p := p) (tail := [DLE]) stuff_single_dle]
    simp only [exec, execRxDlesLit, hstore, andThen_next]
    rfl
  · rw [stuff_single_other hc]
    refine receives_of_row (i := .rxCollAppend c) rfl hs (by rw [hleft]; exact .collAppend _ hc) fun rest => ?_
    rw [← inBlock_store (s := s) (f := .collecting) (m := m) (p := p) (tail := []) (stuff_single_other hc)]
    simp only [exec, execRxCollAppend, hstore]
    rfl

/-- The bytes `q` of a payload, received behind `p`. -/
theorem receives_payloadBytes (hm : BufHolds s m p) {q : List Byte} (hroom : (p ++ q).length ≤ s.cfg.maxBlock) :
    ∃ m', BufHolds s m' (p ++ q) ∧
      Receives (stuff q) (inBlock s .collecting m p []) (inBlock s .collecting m' (p ++ q) []) := by
  induction q generalizing m p with
  | nil => exact ⟨m, by rwa [List.append_nil], by rw [List.append_nil]; exact .nil _⟩
  | cons c q ih =>
    have hlt : p.length < s.cfg.maxBlock := by
      rw [List.length_append, List.length_cons] at hroom
      omega
    rw [List.append_cons] at hroom ⊢
    obtain ⟨m', hm', hq⟩ := ih (bufHolds_append hm hlt c) hroom
    refine ⟨m', hm', ?_⟩
    rw [stuff_cons]
    exact (receives_payloadByte hs hm hlt c).append hq

/-- A payload that fits and does not begin with a control byte, from IDLE. -/
theorem receives_payload {b : Byte} {q : List Byte} (hf : s.fs = FrameState.idle.code) (hb : b ∉ CTRL)
    (hlen : (b :: q).length ≤ s.cfg.maxBlock) (hbuf : Memory.wf s.buf s.cfg.maxBlock) :
    ∃ m, BufHolds s m (b :: q) ∧ Receives (stuff (b :: q)) s (inBlock s .collecting m (b :: q) []) := by
  have hmax : 1 ≤ s.cfg.maxBlock := Nat.le_trans (Nat.le_add_left 1 q.length) hlen
  obtain ⟨m₁, hm₁, hfirst⟩ := receives_firstByte hs hf hb hmax hbuf
  obtain ⟨m, hm, hq⟩ := receives_payloadBytes hs hm₁ (q := q) hlen
  refine ⟨m, hm, ?_⟩
  rw [stuff_cons]
  exact hfirst.append hq

/-! ### The end of a frame (R134, R135) and of an oversized block (R129, R131) -/

/-- The frame's own BCC delivers the block, from the receiver's IDLE with ACC = 0 (R134). -/
theorem step_frameBcc (hm : BufHolds s m p) (rest : List Byte) :
    step (withBytes (frameBcc p :: rest) (inBlock s .verifyBcc m p [DLE, ETX])) =
      deliver (.data p (frameBcc p))
        (withBytes rest { s with fs := FrameState.idle.code, buf := m, len := 0, acc := 0x00#8 }) := by
  have hsum : (inBlock s .verifyBcc m p [DLE, ETX]).acc ^^^ frameBcc p = 0x00#8 := BitVec.xor_self
  have hheld : heldBlock (withBytes rest (inBlock s .verifyBcc m p [DLE, ETX])) = some p := hm.bytes
  rw [step_byte (s := inBlock s .verifyBcc m p [DLE, ETX]) (f := .verifyBcc) (i := .rxBccOk (frameBcc p)) rfl hs
    (by rw [(sumZero_iff _ _).2 hsum]; exact .bccOk _ _)]
  simp only [exec, execRxBccOk, hheld, ← hsum]
  rfl

/-- A BCC that is off by `x` is answered with diagnostic 1 and NAK, and `x` stays in ACC (R135). -/
theorem receives_spoiledBcc {x : Byte} (hx : x ≠ 0x00#8) :
    Receives [frameBcc p ^^^ x] (inBlock s .verifyBcc m p [DLE, ETX])
      (emit (diagEvents .checksumMismatch s.cfg ++ [.txByte NAK])
        { s with fs := FrameState.idle.code, buf := m, len := 0, acc := x }) := by
  have hsum : (inBlock s .verifyBcc m p [DLE, ETX]).acc ^^^ (frameBcc p ^^^ x) = x := by
    show frameBcc p ^^^ (frameBcc p ^^^ x) = x
    rw [← BitVec.xor_assoc, BitVec.xor_self, BitVec.zero_xor]
  have hbad : sumZero (inBlock s .verifyBcc m p [DLE, ETX]) (frameBcc p ^^^ x) = false := by
    rw [sumZero, hsum]
    exact beq_false_of_ne hx
  refine receives_of_row (i := .rxBccBad (frameBcc p ^^^ x)) rfl hs (by rw [hbad]; exact .bccBad _ _) fun rest => ?_
  simp only [exec, execRxBccBad, transmit_eq_emit, diag_eq_emit, emit_emit, encodeBlock_nak]
  rw [show (withBytes rest (inBlock s .verifyBcc m p [DLE, ETX])).acc ^^^ (frameBcc p ^^^ x) = x from hsum]
  rfl

/-- The byte for which there is no room gives the block up, a DLE with the second of its pair (R129, R131). -/
theorem receives_oversized (hfull : p.length = s.cfg.maxBlock) (c : Byte) :
    ∃ a, Receives (stuff [c]) (inBlock s .collecting m p [])
      (abandonBlock .oversizedBlock { s with buf := m, acc := a }) := by
  have hroom {f : FrameState} {tail : List Byte} : room (inBlock s f m p tail) = .full := (room_full_iff _).2 hfull
  by_cases hc : c = DLE
  · subst hc
    rw [stuff_single_dle]
    exact ⟨_, (receives_escape hs).append
      (receives_of_row (i := .rxDlesOvf) rfl hs (by rw [hroom]; exact .dlesOvf _) fun _ => rfl)⟩
  · rw [stuff_single_other hc]
    exact ⟨_, receives_of_row (i := .rxCollOvf c) rfl hs (by rw [hroom]; exact .collOvf _ hc) fun _ => rfl⟩

/-- A payload of one byte more than fits, from IDLE (R129, R131). -/
theorem receives_oversizedPayload {b : Byte} {q : List Byte} (hf : s.fs = FrameState.idle.code) (hb : b ∉ CTRL)
    (hmax : 1 ≤ s.cfg.maxBlock) (hlen : (b :: q).length = s.cfg.maxBlock + 1) (hbuf : Memory.wf s.buf s.cfg.maxBlock) :
    ∃ m a, Receives (stuff (b :: q)) s
      (abandonBlock .oversizedBlock { s with buf := m, acc := a }) := by
  have hq : q.length = s.cfg.maxBlock := Nat.succ.inj hlen
  obtain rfl | ⟨q, c, rfl⟩ := List.eq_nil_or_concat' q
  · exact absurd hmax (hq ▸ Nat.not_succ_le_zero 0)
  have hfull : (b :: q).length = s.cfg.maxBlock := by simpa using hq
  obtain ⟨m, -, hpayload⟩ := receives_payload hs hf hb hfull.le hbuf
  obtain ⟨a, hover⟩ := receives_oversized (m := m) hs hfull c
  have hrecv := hpayload.append hover
  rw [← stuff_append] at hrecv
  exact ⟨m, a, hrecv⟩

/-- A frame whose BCC is off by `x`, from IDLE: no delivery, and the session as it was. -/
theorem receives_spoiledFrame {b x : Byte} {q : List Byte} (hf : s.fs = FrameState.idle.code) (hb : b ∉ CTRL)
    (hlen : (b :: q).length ≤ s.cfg.maxBlock) (hbuf : Memory.wf s.buf s.cfg.maxBlock) (hx : x ≠ 0x00#8) :
    ∃ m, Receives (stuff (b :: q) ++ [DLE, ETX, frameBcc (b :: q) ^^^ x]) s
      { s with buf := m, len := 0, acc := x, out := s.out ++ (diagEvents .checksumMismatch s.cfg ++ [.txByte NAK]) } := by
  obtain ⟨m, -, hpayload⟩ := receives_payload hs hf hb hlen hbuf
  have hframe := hpayload.append ((receives_terminator hs).append (receives_spoiledBcc hs hx))
  rw [emit, ← hf] at hframe
  exact ⟨m, hframe⟩

end

end Sys2Proof.Machine
end

/-! ### What the receiver makes of encoded payloads (40_codec.md R109) -/

section
namespace Sys2Proof.Machine

/-- An encoded payload that can be received ends in the session row of its DATA delivery. -/
theorem encodedBlock_isDelivered {s : State} {b : Byte} {q : List Byte} (hf : s.fs = FrameState.idle.code)
    (hs : (SessionState.ofCode s.ss).isSome = true) (hb : b ∉ CTRL) (hlen : (b :: q).length ≤ s.cfg.maxBlock)
    (hbuf : Memory.wf s.buf s.cfg.maxBlock) :
    ∃ row m, decode (sessionWord s (.data (b :: q) (frameBcc (b :: q)))) = .ok row ∧
      runSteps (encodeBlock (b :: q)).length (withBytes (encodeBlock (b :: q)) s) =
        exec row { s with buf := m, len := 0, acc := 0x00#8 } := by
  obtain ⟨m, hm, hpayload⟩ := receives_payload hs hf hb hlen hbuf
  obtain ⟨x, row, hx, hsel, hrow⟩ := sessionWord_selects hs (d := .data (b :: q) (frameBcc (b :: q))) rfl
  refine ⟨row, m, hrow, ?_⟩
  have hsplit : encodeBlock (b :: q) = (stuff (b :: q) ++ [DLE, ETX]) ++ [frameBcc (b :: q)] := by
    rw [encodeBlock_of_start q hb, frame, List.append_assoc]
    rfl
  rw [hsplit, List.length_append, hpayload.append (receives_terminator hs), List.length_singleton, runSteps_one,
    step_frameBcc hs hm, withBytes_nil, ← hf]
  exact deliver_of_selects (s := { s with buf := m, len := 0, acc := 0x00#8 }) hx hsel

/-- Settles O35: byte by byte the receiver collects what was stuffed, and the frame's BCC makes the exclusive-or zero. -/
theorem encodedPayloadsAreReceived : Obligations.EncodedPayloadsAreReceived := by
  constructor
  · intro s b q hf hs hb hlen hbuf
    obtain ⟨row, m, hrow, hrun⟩ := encodedBlock_isDelivered hf hs hb hlen hbuf
    exact ⟨row, _, hrow, rfl, hrun⟩
  · intro s d hf hs hd
    obtain ⟨-, c, hc, hblk⟩ := controlDelivery_byte hd
    obtain ⟨row, t, hrow, hexec, hrecv, -⟩ := receives_controlByte hf hs hd hblk
    refine ⟨row, hrow, ?_⟩
    rw [hblk, encodeBlock_control hc, hexec]
    exact hrecv.run []

/-- What is left of a frame whose rest of the payload and BCC hold no STX. -/
theorem stx_not_mem_frameRest {r : List Byte} {c : Byte} (hr : STX ∉ r) (hc : c ≠ STX) :
    STX ∉ stuff r ++ [DLE, ETX, c] := by
  have hstuff : STX ∉ stuff r := by
    rwa [← List.count_eq_zero, stuff_count_other (by decide), List.count_eq_zero]
  simp [hstuff, hc.symm, show STX ≠ DLE by decide, show STX ≠ ETX by decide]

/-- Settles O37: the byte too many gives the block up, and RESYNC passes over the rest of the frame. -/
theorem overlongPayloadsAreAbandoned : Obligations.OverlongPayloadsAreAbandoned := by
  intro s b q r hf hs hb hmax hlen hbuf
  obtain ⟨m, a, hover⟩ := receives_oversizedPayload hs hf hb hmax hlen hbuf
  have henc : encodeBlock (b :: q ++ r) = stuff (b :: q) ++ (stuff r ++ [DLE, ETX, frameBcc (b :: q ++ r)]) := by
    rw [List.cons_append, encodeBlock_of_start _ hb, frame, ← List.cons_append, stuff_append, List.append_assoc]
  rw [henc]
  have hrun := hover.run (stuff r ++ [DLE, ETX, frameBcc (b :: q ++ r)])
  refine ⟨_, by rfl, rfl, hrun, fun hr hbcc => ?_⟩
  have hrest := receives_discarded (s := abandonBlock .oversizedBlock { s with buf := m, acc := a }) rfl hs
    (stx_not_mem_frameRest hr hbcc)
  simpa using (hover.append hrest).run []

/-- The frame of a longer payload is its first byte and then, for a byte other than DLE, the frame of the rest with a spoiled
BCC, for a DLE a second DLE and the good frame of the rest. -/
theorem frame_cons_cases (c : Byte) (p : List Byte) :
    ∃ rest, frame (c :: p) = c :: rest ∧ (c ≠ DLE → rest = stuff p ++ [DLE, ETX, frameBcc p ^^^ c]) ∧
      (c = DLE → rest = DLE :: frame p) := by
  by_cases hc : c = DLE
  · subst hc
    exact ⟨_, frame_cons_dle p, fun h => absurd rfl h, fun _ => rfl⟩
  · exact ⟨_, frame_cons_other hc p, fun _ => rfl, fun h => absurd h hc⟩

theorem ne_zero_of_mem_ctrl {c : Byte} (h : c ∈ CTRL) : c ≠ 0x00#8 := by
  revert c; decide

/-- Settles O60: the first byte is read as its own delivery, which leaves the receiver in IDLE, where the rest of the frame
has a BCC that is off by that byte. -/
theorem payloadsThatBeginWithAControlByteAreMisread : Obligations.PayloadsThatBeginWithAControlByteAreMisread := by
  intro s d c b q hf hs hd hblk
  obtain ⟨row, t, hrow, hexec, hrecv, htf, hts, htbuf, htcfg⟩ := receives_controlByte hf hs hd hblk
  obtain ⟨rest, hrest, hother, hdle⟩ := frame_cons_cases c (b :: q)
  have henc : encodeBlock (c :: b :: q) = c :: rest := hrest
  have hfirst (n : Nat) : runSteps (n + 1) (withBytes (c :: rest) s) = runSteps n (withBytes rest t) := by
    rw [Nat.add_comm]
    exact hrecv n rest
  rw [henc]
  refine ⟨row, t, rest, hrow, hexec, htf, rfl, hfirst, hother, hdle, fun hc hb hlen hbuf => ?_⟩
  have hx : c ≠ 0x00#8 := by
    obtain ⟨-, c', hc', hblk'⟩ := controlDelivery_byte hd
    obtain rfl : c = c' := by simpa [hblk] using hblk'
    exact ne_zero_of_mem_ctrl hc'
  obtain ⟨m, hspoiled⟩ := receives_spoiledFrame hts htf hb (htcfg ▸ hlen) (htcfg ▸ htbuf ▸ hbuf) hx
  rw [← hother hc] at hspoiled
  have hrun := hspoiled.run []
  rw [List.append_nil, withBytes_nil] at hrun
  rw [← htcfg]
  exact ⟨_, by rfl, (hfirst _).trans hrun⟩

end Sys2Proof.Machine
end

/-! ### Receiver rows that write or discard (41_receiver.md R122, R127 to R133, R135) -/

section
namespace Sys2Proof.Machine

/-- A receiver word whose FS and byte are written out decodes to the row that they and the guards select. -/
theorem decode_rwWord (f : FrameState) {b : Byte} {r : Room} {z : Bool} {i : Instr} (h : ReceiverSelects f b r z i) :
    decode (.rw (rwWord f.code b) r z) = .ok i := decode_encodeRw h

/-- Settles O12: the byte is not STX, and the row does nothing. -/
theorem resyncDiscardsOtherBytes : Obligations.ResyncDiscardsOtherBytes :=
  fun _ _ room z hb => ⟨decode_rwWord .resync (.resyncDiscard room z hb), rfl⟩

/-- Settles O15: the two rows write ACC and FS, whatever the guards are. -/
theorem escapeAndTerminatorAreFoldedIntoAcc : Obligations.EscapeAndTerminatorAreFoldedIntoAcc :=
  ⟨fun room z => ⟨decode_rwWord .collecting (.collDle room z), decode_rwWord .dleSeen (.dlesEtx room z)⟩,
    fun _ => ⟨rfl, rfl⟩⟩

/-- Settles O17: with LEN = MAX_BLOCK both rows are the shared abandonment of the block. -/
theorem oversizedBlockIsAbandoned : Obligations.OversizedBlockIsAbandoned :=
  ⟨rfl, fun _ z hb => decode_rwWord .collecting (.collOvf z hb), fun z => decode_rwWord .dleSeen (.dlesOvf z),
    fun _ => ⟨fun _ => rfl, rfl⟩⟩

/-- Settles O18: the row is the shared abandonment of the block. -/
theorem badEscapeIsAbandoned : Obligations.BadEscapeIsAbandoned := by
  refine ⟨rfl, fun b room z hb => ?_, fun _ _ => rfl⟩
  have hdle : b ≠ DLE := List.ne_of_not_mem_cons hb
  have hetx : b ≠ ETX := List.ne_of_not_mem_cons (List.not_mem_of_not_mem_cons hb)
  exact decode_rwWord .dleSeen (.dlesErr room z hdle hetx)

/-- Settles O20: the diagnostic and the raw NAK are one emission, after the receiver's own writes. -/
theorem wrongChecksumIsAnsweredWithNak : Obligations.WrongChecksumIsAnsweredWithNak := by
  refine ⟨rfl, fun b room => decode_rwWord .verifyBcc (.bccBad b room), fun s b => ?_⟩
  simp only [exec, execRxBccBad, transmit_eq_emit, diag_eq_emit, emit_emit, encodeBlock_nak]
  rfl

/-! ### Receiver rows that store (R126, R128, R130) -/

/-- The first byte of a block, where BUF has an element for it (R126). -/
theorem execRxIdleStart_stores {s : State} (h : 0 < s.buf.length) (b : Byte) :
    execRxIdleStart b s =
      .next { s with buf := Memory.write s.buf 0 b, len := 1, acc := b, fs := FrameState.collecting.code } := by
  rw [execRxIdleStart, bufWrite_inside h, andThen_next]
  rfl

/-- The stuffed literal, where BUF has an element for it (R130). -/
theorem execRxDlesLit_stores {s : State} (h : s.len < s.buf.length) :
    execRxDlesLit s =
      .next { s with buf := Memory.write s.buf s.len DLE, len := s.len + 1, acc := s.acc ^^^ DLE,
                     fs := FrameState.collecting.code } := by
  rw [execRxDlesLit, appendByte_room h, andThen_next]
  rfl

/-- Settles O14: BUF has an element 0 to write, since it has MAX_BLOCK of them. -/
theorem firstByteBeginsABlock : Obligations.FirstByteBeginsABlock := by
  constructor
  · intro b room z hb
    obtain ⟨hstx, hdle, hnak⟩ := not_mem_ctrl_iff.1 hb
    exact decode_rwWord .idle (.idleStart room z hstx hdle hnak)
  · intro s b hmax hbuf
    have hsize : 0 < s.buf.length := hbuf.symm ▸ hmax
    exact ⟨_, execRxIdleStart_stores hsize b, rfl, memory_read_write_same hsize b,
      fun _ hi => memory_read_write_other s.buf b hi⟩

/-- Settles O16: BUF has an element LEN to write, since LEN is below MAX_BLOCK. -/
theorem dataBytesAreAppended : Obligations.DataBytesAreAppended := by
  refine ⟨fun _ z hb => decode_rwWord .collecting (.collAppend z hb), fun z => decode_rwWord .dleSeen (.dlesLit z), ?_⟩
  intro s hlen hbuf
  have hsize : s.len < s.buf.length := hbuf.symm ▸ hlen
  have hread (b : Byte) : Memory.read (Memory.write s.buf s.len b) s.len = some b ∧
      ∀ i, i ≠ s.len → Memory.read (Memory.write s.buf s.len b) i = Memory.read s.buf i :=
    ⟨memory_read_write_same hsize b, fun _ hi => memory_read_write_other s.buf b hi⟩
  exact ⟨fun b => ⟨_, appendByte_room hsize b, rfl, hread b⟩, _, execRxDlesLit_stores hsize, rfl, hread DLE⟩

end Sys2Proof.Machine
end

/-! ### Receiver rows that deliver (R121, R123 to R125, R134, R136) -/

section
namespace Sys2Proof.Machine

/-- The session word of a delivery decodes by the session map (R81, R88). -/
theorem decode_sessionWord {d : Delivery} (hd : d.wf = true) (s : State) :
    decode (sessionWord s d) = sessionRow instrRows s.ss d s.pv := by
  simp only [decode, sessionWord, swKind_swWord, kind_ofCode_code, deliveryOf_operands hd, swSs_swWord, swPv_swWord]

/-- A delivery runs the row that its session word decodes to (R136, R150). -/
theorem deliver_eq_exec {s : State} {d : Delivery} {row : Instr} (hd : d.wf = true)
    (h : decode (sessionWord s d) = .ok row) : deliver d s = exec row s := by
  rw [decode_sessionWord hd] at h
  obtain ⟨x, hx⟩ := sessionRow_legal h
  rw [hx] at h
  exact deliver_of_selects hx (sessionRow_eq_ok_iff.1 h)

theorem sessionWord_decodes {s : State} (hs : (SessionState.ofCode s.ss).isSome = true) {d : Delivery}
    (hd : d.wf = true) : ∃ row, decode (sessionWord s d) = .ok row := by
  obtain ⟨-, row, -, -, hrow⟩ := sessionWord_selects hs hd
  exact ⟨row, hrow⟩

theorem deliver_completes {s : State} (hs : (SessionState.ofCode s.ss).isSome = true) (d : Delivery) :
    ∃ t, deliver d s = .next t := by
  obtain ⟨t, ht, -⟩ := deliver_delivered hs d
  exact ⟨t, ht⟩

/-- Settles O11: leaving RESYNC changes FS alone, which the session row's selection does not read. -/
theorem startByteEndsResync : Obligations.StartByteEndsResync := by
  refine ⟨fun room z => decode_rwWord .resync (.resyncStx room z),
    fun _ room z hb => decode_rwWord .resync (.resyncDiscard room z hb), fun s => ⟨fun _ => rfl, ?_, ?_⟩⟩
  · intro row hrow
    exact deliver_eq_exec (s := setFs .idle s) (d := .stx) rfl hrow
  · intro hs
    exact ⟨sessionWord_decodes hs rfl, deliver_completes (s := setFs .idle s) hs .stx⟩

/-- Settles O13: the three rows are deliveries on the unchanged state. -/
theorem controlBytesInIdleAreDelivered : Obligations.ControlBytesInIdleAreDelivered := by
  refine ⟨fun room z => ⟨decode_rwWord .idle (.idleStx room z), decode_rwWord .idle (.idleDle room z),
      decode_rwWord .idle (.idleNak room z)⟩,
    fun s => ⟨fun _ => deliver_eq_exec rfl, fun _ => deliver_eq_exec rfl, fun _ => deliver_eq_exec rfl, fun hs => ?_⟩⟩
  refine ⟨?_, deliver_completes hs .stx, deliver_completes hs .dle, deliver_completes hs .nak⟩
  simp only [List.forall_mem_cons]
  exact ⟨sessionWord_decodes hs rfl, sessionWord_decodes hs rfl, sessionWord_decodes hs rfl, nofun⟩

/-- The held block is delivered after the receiver's own writes (R134). -/
theorem execRxBccOk_delivers {s : State} {blk : List Byte} (h : heldBlock s = some blk) (b : Byte) :
    execRxBccOk b s =
      deliver (.data blk b) { s with acc := s.acc ^^^ b, len := 0, fs := FrameState.idle.code } := by
  rw [execRxBccOk, h]
  rfl

/-- Settles O19: LEN is within BUF, so there is a held block, which is not empty and so has a session row. -/
theorem verifiedBlockIsDelivered : Obligations.VerifiedBlockIsDelivered := by
  refine ⟨fun b room => decode_rwWord .verifyBcc (.bccOk b room), ?_⟩
  intro s b hs hpos hmax hbuf
  obtain ⟨blk, hheld⟩ : ∃ blk, heldBlock s = some blk := ⟨_, memory_firstBytes_inside (hbuf.symm ▸ hmax)⟩
  have hlen : blk.length = s.len := memory_firstBytes_length hheld
  have hwf : (Delivery.data blk b).wf = true := by
    have hne : blk ≠ [] := List.ne_nil_of_length_pos (hlen ▸ hpos)
    simpa [Delivery.wf] using hne
  obtain ⟨row, hrow⟩ := sessionWord_decodes hs hwf
  have hdeliver := execRxBccOk_delivers hheld b
  have hexec := hdeliver.trans (deliver_eq_exec hwf hrow)
  obtain ⟨t, ht⟩ : ∃ t, execRxBccOk b s = .next t := by
    rw [hdeliver]
    apply deliver_completes
    exact hs
  exact ⟨blk, row, t, hlen, fun _ hi => memory_firstBytes_getElem hheld hi, hrow, hexec, ht⟩

/-! ### What is handed to the decoder (R134, R139, 42_session.md R160) -/

theorem dec_not_mem_diagEvents (c : DiagCode) (cfg : Config) (blk : List Byte) (bcc : Option Byte) :
    .dec blk bcc ∉ diagEvents c cfg := by
  simp [diagEvents]

/-- A delivery hands over itself or nothing, and only in LOGGING (R160). -/
theorem delivered_dec {u t : State} {d : Delivery} (h : Delivered u d t) :
    ∃ l, t.out = u.out ++ l ∧ ∀ blk bcc, .dec blk bcc ∈ l →
      u.ss = SessionState.logging.code ∧ (d.kind = .nak ∨ d.kind = .data) ∧ blk = d.blk ∧ bcc = d.bcc := by
  cases h with
  | hssStx | hssDle | logStxPend | logStxIdle | logDleSend => exact ⟨_, rfl, by simp⟩
  | hssIgn | hscDle => exact ⟨[], (List.append_nil _).symm, nofun⟩
  | hscRej | logDleNop => exact ⟨_, rfl, by simp [dec_not_mem_diagEvents]⟩
  | logData _ hs hd => exact ⟨_, rfl, by simp [hs, hd]⟩

/-- A step from `s` may hand these to the decoder: a NAK, or the held block with the byte that makes its checksum zero. -/
inductive Decodable (s : State) : List Byte → Option Byte → Prop where
  | nak (hss : s.ss = SessionState.logging.code) : Decodable s [NAK] none
  | block {c : Byte} {blk : List Byte} (hss : s.ss = SessionState.logging.code)
      (hf : s.fs = FrameState.verifyBcc.code) (hin : s.input.head? = some (.rxb c)) (hheld : heldBlock s = some blk)
      (hsum : s.acc ^^^ c = 0x00#8) : Decodable s blk (some c)

/-- OUT grows by a list whose decoder events are all `Decodable`. -/
def AppendsDecodable (s t : State) : Prop :=
  ∃ l, t.out = s.out ++ l ∧ ∀ blk bcc, .dec blk bcc ∈ l → Decodable s blk bcc

theorem AppendsDecodable.silent {s t : State} (h : t.out = s.out) : AppendsDecodable s t :=
  ⟨[], by rw [h, List.append_nil], nofun⟩

theorem AppendsDecodable.noDec {s t : State} {l : List OutEvent} (h : t.out = s.out ++ l)
    (hl : ∀ blk bcc, .dec blk bcc ∉ l) : AppendsDecodable s t :=
  ⟨l, h, fun blk bcc hm => absurd hm (hl blk bcc)⟩

/-- A delivery hands over nothing but what the state it runs in allows to its kind. -/
theorem AppendsDecodable.delivered {s u t : State} {d : Delivery} (h : Delivered u d t) (hout : u.out = s.out)
    (hd : u.ss = SessionState.logging.code → d.kind = .nak ∨ d.kind = .data → Decodable s d.blk d.bcc) :
    AppendsDecodable s t := by
  obtain ⟨l, hl, hdec⟩ := delivered_dec h
  refine ⟨l, by rw [hl, hout], fun blk bcc hm => ?_⟩
  obtain ⟨hss, hkind, rfl, rfl⟩ := hdec blk bcc hm
  exact hd hss hkind

/-- Among the rows, only those that deliver a NAK or a verified block can reach the decoder. -/
theorem stepEffect_dec {s t : State} (h : StepEffect s t) : AppendsDecodable s t := by
  cases h with
  | resyncStx _ _ hd | idleStx _ _ hd | idleDle _ _ hd =>
    exact .delivered hd rfl fun _ hk => absurd hk (by decide)
  | idleNak _ _ hd => exact .delivered hd rfl fun hss _ => .nak hss
  | bccOk b blk hin hf hz hheld hd =>
    exact .delivered hd rfl fun hss _ => .block hss hf (by rw [hin]; rfl) hheld hz
  | collOvf | dlesOvf | dlesErr => exact .noDec rfl (dec_not_mem_diagEvents _ _)
  | bccBad | reqBusy => exact .noDec rfl (by simp [dec_not_mem_diagEvents])
  | reqAccept | reqOverwrite => exact .noDec rfl (by simp)
  | _ => exact .silent rfl

/-- Settles O38: what reaches the decoder is a NAK or the held block, of which the invariant says how long it is, how it
begins, and that ACC is the exclusive-or of its frame so far. -/
theorem decodedBlocksWereVerified : Obligations.DecodedBlocksWereVerified := by
  intro s t l blk bcc hinv h hout hmem
  obtain ⟨l', hout', hdec⟩ := stepEffect_dec (step_effect h)
  obtain rfl : l = l' := List.append_cancel_left (hout.symm.trans hout')
  cases hdec blk bcc hmem with
  | nak hss => exact ⟨hss, .inl ⟨rfl, rfl⟩⟩
  | @block c _ hss hf hin hheld hsum =>
    obtain ⟨b, q, hheld', hb, hmax, hacc⟩ : HoldsBlock s [DLE, ETX] :=
      (receiverInv_iff (f := .verifyBcc) hf).1 hinv.receiver
    obtain rfl : blk = b :: q := Option.some.inj (hheld.symm.trans hheld')
    have hlen : (b :: q).length = s.len := memory_firstBytes_length hheld
    refine ⟨hss, .inr ⟨c, rfl, hf, hin, hheld, Nat.le_add_left 1 q.length, hlen ▸ hmax, ?_, ?_⟩⟩
    · intro b' hb'
      obtain rfl : b = b' := Option.some.inj hb'
      exact hb
    · calc xorAll (stuff (b :: q) ++ [DLE, ETX, c]) = xorAll (stuff (b :: q) ++ [DLE, ETX]) ^^^ c := by
            simp [BitVec.xor_assoc]
        _ = 0x00#8 := by rw [← hacc, hsum]

/-! ### Leaving RESYNC (R121, R122) -/

/-- A delivery leaves FS. -/
theorem delivered_fs {u t : State} {d : Delivery} (h : Delivered u d t) : t.fs = u.fs := by
  obtain ⟨x, pv, l, rfl, -⟩ := delivered_writes h
  rfl

/-- The reset value of FS is RESYNC or IDLE (R35). -/
theorem resetCode_eq_idle {r : RxResetState} (h : r.frameState.code ≠ FrameState.resync.code) :
    r.frameState.code = FrameState.idle.code := by
  cases r with
  | resync => exact absurd rfl h
  | idle => rfl

/-- Settles O53: of the rows that RESYNC selects, the start byte's alone writes FS; of the other events, reset alone. -/
theorem resyncIsLeftOnlyOnTheStartByte : Obligations.ResyncIsLeftOnlyOnTheStartByte := by
  intro s t h hfs hleft
  cases step_effect h with
  | resyncStx hin _ hd => exact ⟨delivered_fs hd, .inl (by rw [hin]; rfl)⟩
  | rst hin => exact ⟨resetCode_eq_idle hleft, .inr (by rw [hin]; rfl)⟩
  | noEvent | discard | rxt | reqAccept | reqBusy | reqOverwrite => exact absurd hfs hleft
  | _ => exact absurd (hfs.symm.trans ‹s.fs = _›) (by decide)

end Sys2Proof.Machine
end

/-! ### Spoiled frames (R135, 30_encoding.md R90) -/

section
namespace Sys2Proof.Machine

/-- Only the last byte is spoiled (R90). -/
theorem spoilLast_append (l : List Byte) (b : Byte) : spoilLast (l ++ [b]) = l ++ [b ^^^ 0x01#8] := by
  induction l with
  | nil => rfl
  | cons a l ih =>
    cases l with
    | nil => rfl
    | cons c l => exact congrArg (a :: ·) ih

theorem spoilLast_frame (p : List Byte) : spoilLast (frame p) = stuff p ++ [DLE, ETX, frameBcc p ^^^ 0x01#8] := by
  have hsplit (c : Byte) : stuff p ++ [DLE, ETX, c] = (stuff p ++ [DLE, ETX]) ++ [c] := by
    rw [List.append_assoc]
    rfl
  rw [frame, hsplit, spoilLast_append, hsplit]

/-- Settles O36: the payload is collected as from a good frame, and the spoiled BCC leaves ACC = `x`. -/
theorem spoiledFramesAreAnsweredWithNak : Obligations.SpoiledFramesAreAnsweredWithNak := by
  constructor
  · intro s b x q hf hs hb hlen hbuf hx
    obtain ⟨m, hrecv⟩ := receives_spoiledFrame hs hf hb hlen hbuf hx
    have hrun := hrecv.run []
    rw [List.append_nil, withBytes_nil] at hrun
    exact ⟨_, by rfl, hrun⟩
  · intro b q hb
    rw [expandStimulus, encodeBlock_of_start q hb, spoilLast_frame]

end Sys2Proof.Machine
end

/-! ### What changes SS (42_session.md R150, R163) -/

section
namespace Sys2Proof.Machine

/-- Every change of SS that the delivery of a DLE makes: one for each SessionState (R152, R154, R158). -/
theorem delivered_dle_changes_ss {u t : State} (h : Delivered u .dle t) (hne : t.ss ≠ u.ss) :
    (u.ss = SessionState.handshakeStart.code ∧ t.ss = SessionState.handshakeConfirm.code) ∨
    (u.ss = SessionState.handshakeConfirm.code ∧ t.ss = SessionState.logging.code ∧ t.out = u.out) ∨
    (u.ss = SessionState.logging.code ∧ t.ss = SessionState.handshakeStart.code ∧ u.pv = true) := by
  cases h with
  | hssDle hs => exact .inl ⟨hs, rfl⟩
  | hscDle hs => exact .inr (.inl ⟨hs, rfl, rfl⟩)
  | logDleSend hs hp => exact .inr (.inr ⟨hs, rfl, hp⟩)
  | hscRej _ _ hd => exact absurd rfl hd
  | hssIgn | logDleNop | logData => exact absurd rfl hne

/-- Every other delivery changes SS only by rejecting the handshake (R155). -/
theorem delivered_other_changes_ss {u t : State} {d : Delivery} (h : Delivered u d t) (hd : d ≠ .dle)
    (hne : t.ss ≠ u.ss) : u.ss = SessionState.handshakeConfirm.code ∧ t.ss = SessionState.handshakeStart.code := by
  cases h with
  | hscRej _ hs _ => exact ⟨hs, rfl⟩
  | hssDle | hscDle | logDleSend => exact absurd rfl hd
  | hssStx | hssIgn | logStxPend | logStxIdle | logDleNop | logData => exact absurd rfl hne

/-- Settles O52: of the receiver rows only those that deliver can change SS, a DLE by one of its own changes and the
others by the rejection; of the other events only reset can. -/
theorem sessionChangesOnlyOnItsTransitions : Obligations.SessionChangesOnlyOnItsTransitions := by
  intro s t h hne
  cases step_effect h with
  | rst hin => exact .inl ⟨by rw [hin]; rfl, rfl⟩
  | idleDle hin hf hd =>
    have hhead : s.input.head? = some (.rxb DLE) := by rw [hin]; rfl
    obtain ⟨hs, ht⟩ | ⟨hs, ht, hout⟩ | ⟨hs, ht, hp⟩ := delivered_dle_changes_ss hd hne
    · exact .inr (.inl ⟨hs, ht, hf, hhead⟩)
    · exact .inr (.inr (.inl ⟨hs, ht, hf, hhead, hout⟩))
    · exact .inr (.inr (.inr (.inr ⟨hs, ht, hf, hhead, hp⟩)))
  | resyncStx hin hf hd =>
    obtain ⟨hs, ht⟩ := delivered_other_changes_ss hd nofun hne
    exact .inr (.inr (.inr (.inl ⟨hs, ht, STX, by rw [hin]; rfl, .inl ⟨hf, rfl⟩⟩)))
  | idleStx hin hf hd =>
    obtain ⟨hs, ht⟩ := delivered_other_changes_ss hd nofun hne
    exact .inr (.inr (.inr (.inl ⟨hs, ht, STX, by rw [hin]; rfl, .inr (.inl ⟨hf, .inl rfl⟩)⟩)))
  | idleNak hin hf hd =>
    obtain ⟨hs, ht⟩ := delivered_other_changes_ss hd nofun hne
    exact .inr (.inr (.inr (.inl ⟨hs, ht, NAK, by rw [hin]; rfl, .inr (.inl ⟨hf, .inr rfl⟩)⟩)))
  | bccOk b blk hin hf hz hheld hd =>
    obtain ⟨hs, ht⟩ := delivered_other_changes_ss hd nofun hne
    exact .inr (.inr (.inr (.inl ⟨hs, ht, b, by rw [hin]; rfl, .inr (.inr ⟨hf, hz⟩)⟩)))
  | _ => exact absurd rfl hne

end Sys2Proof.Machine
end

/-! ### What a step transmits (42_session.md R161, 40_codec.md R100, R106) -/

section
namespace Sys2Proof.Machine

@[simp] theorem txBytes_append (l m : List OutEvent) : txBytes (l ++ m) = txBytes l ++ txBytes m := by
  induction l with
  | nil => rfl
  | cons e l ih => cases e <;> simp [txBytes, ih]

@[simp] theorem txBytes_map_txByte (l : List Byte) : txBytes (l.map .txByte) = l := by
  induction l with
  | nil => rfl
  | cons b l ih => simp [txBytes, ih]

@[simp] theorem txBytes_diagEvents (c : DiagCode) (cfg : Config) : txBytes (diagEvents c cfg) = [] := by
  cases h : cfg.diagEn <;> simp [diagEvents, txBytes, h]

/-- `bytes` is the encoding of one of the payloads that R106 lists. -/
def IsReply (s : State) (bytes : List Byte) : Prop :=
  ∃ p ∈ [[NAK], [STX], [DLE], s.cfg.logCmd, s.pbuf.toList], bytes = encodeBlock p

theorem IsReply.control {c : Byte} (hc : c ∈ CTRL) (s : State) : IsReply s [c] := by
  refine ⟨[c], ?_, (encodeBlock_control hc).symm⟩
  simp only [List.mem_cons, List.not_mem_nil, or_false] at hc
  rcases hc with rfl | rfl | rfl <;> simp

theorem IsReply.logCmd (s : State) : IsReply s (encodeBlock s.cfg.logCmd) := ⟨_, by simp, rfl⟩

theorem IsReply.pending (s : State) : IsReply s (frame s.pbuf.toList) :=
  ⟨_, by simp, (encodeBlock_payload s.pbuf).symm⟩

/-- A delivery is answered with nothing or with one reply (R161). -/
theorem delivered_reply {u t : State} {d : Delivery} (h : Delivered u d t) :
    ∃ l, t.out = u.out ++ l ∧ (txBytes l = [] ∨ IsReply u (txBytes l)) := by
  cases h with
  | hssStx | logStxPend => exact ⟨_, rfl, .inr (.control (c := STX) (by decide) u)⟩
  | logStxIdle | logData => exact ⟨_, rfl, .inr (.control (c := DLE) (by decide) u)⟩
  | hssDle => exact ⟨_, rfl, .inr (by rw [txBytes_map_txByte]; exact .logCmd u)⟩
  | logDleSend => exact ⟨_, rfl, .inr (by rw [txBytes_map_txByte]; exact .pending u)⟩
  | hssIgn | hscDle => exact ⟨[], (List.append_nil _).symm, .inl rfl⟩
  | hscRej | logDleNop => exact ⟨_, rfl, .inl (txBytes_diagEvents _ _)⟩

/-- OUT grows by a list that transmits nothing or, after a received byte, one reply. -/
def AppendsReply (s t : State) : Prop :=
  ∃ l, t.out = s.out ++ l ∧ (txBytes l = [] ∨ ((∃ b, s.input.head? = some (.rxb b)) ∧ IsReply s (txBytes l)))

theorem AppendsReply.silent {s t : State} (h : t.out = s.out) : AppendsReply s t :=
  ⟨[], by rw [h, List.append_nil], .inl rfl⟩

theorem AppendsReply.noTx {s t : State} {l : List OutEvent} (h : t.out = s.out ++ l) (hl : txBytes l = []) :
    AppendsReply s t := ⟨l, h, .inl hl⟩

/-- A received byte that writes the receiver's elements and then delivers. -/
theorem AppendsReply.delivered {s t : State} {b : Byte} {rest : List Event} {fs : BitVec 3} {len : Nat} {acc : Byte}
    {d : Delivery} (hin : s.input = .rxb b :: rest)
    (hd : Delivered { s with input := rest, fs := fs, len := len, acc := acc } d t) : AppendsReply s t := by
  obtain ⟨l, hout, htx⟩ := delivered_reply hd
  exact ⟨l, hout, htx.imp_right fun hr => ⟨⟨b, by rw [hin]; rfl⟩, hr⟩⟩

/-- Only the rows that deliver transmit, and the one that answers a wrong checksum (R135). -/
theorem stepEffect_reply {s t : State} (h : StepEffect s t) : AppendsReply s t := by
  cases h with
  | resyncStx hin _ hd | idleStx hin _ hd | idleDle hin _ hd | idleNak hin _ hd => exact .delivered hin hd
  | bccOk _ _ hin _ _ _ hd => exact .delivered hin hd
  | bccBad b hin _ _ =>
    refine ⟨_, rfl, .inr ⟨⟨b, by rw [hin]; rfl⟩, ?_⟩⟩
    rw [txBytes_append, txBytes_diagEvents]
    exact .control (c := NAK) (by decide) s
  | collOvf | dlesOvf | dlesErr => exact .noTx rfl (txBytes_diagEvents _ _)
  | reqBusy => exact .noTx rfl (txBytes_diagEvents _ _)
  | reqAccept | reqOverwrite => exact .noTx rfl rfl
  | _ => exact .silent rfl

/-- Settles O54: what a step appends to OUT is determined, and it transmits one reply at most. -/
theorem atMostOneReplyAStep : Obligations.AtMostOneReplyAStep := by
  intro s t l h hout
  obtain ⟨l', hout', hreply⟩ := stepEffect_reply (step_effect h)
  obtain rfl : l = l' := List.append_cancel_left (hout.symm.trans hout')
  exact hreply

end Sys2Proof.Machine
end

/-! ### Session rows (42_session.md R151 to R160) -/

section
namespace Sys2Proof.Machine

/-- A session word whose SS, kind and PV are written out decodes to the row that they select. -/
theorem decode_swWord (x : SessionState) {d : Delivery} {pv : Bool} {i : Instr} (hd : d.wf = true)
    (h : SessionSelects x d pv i) : decode (.sw (swWord x.code d.kind.code pv) d.blk d.bcc) = .ok i :=
  decode_encodeSw hd h

theorem data_wf {blk : List Byte} (h : blk ≠ []) (bcc : Byte) : (Delivery.data blk bcc).wf = true := by
  simpa [Delivery.wf] using h

/-- A control byte is transmitted raw (R102). -/
theorem transmit_control {c : Byte} (hc : c ∈ CTRL) (s : State) : transmit [c] s = emit [.txByte c] s := by
  rw [transmit_eq_emit, encodeBlock_control hc]
  rfl

/-- PBUF is transmitted as one frame (R103, R158). -/
theorem transmit_pendingBytes (s : State) :
    transmit (pendingBytes s) s = emit ((frame s.pbuf.toList).map .txByte) s := by
  rw [transmit_eq_emit, pendingBytes, encodeBlock_payload]

/-- PBUF selects the framing row (R82), having eight bytes. -/
theorem encoderRow_payload (p : Payload) : encoderRow p.toList = .txFrame p.toList := by
  have hlen : p.toList.length = 8 := Vector.length_toList
  refine encoderRow_of_framed (txFrame_wf ?_ ?_)
  · intro h
    simp [h] at hlen
  · intro c _ h
    simp [h] at hlen

/-- Settles O22: each of the three rows transmits one control byte, and that raw. -/
theorem pollsAreAnswered : Obligations.PollsAreAnswered := by
  refine ⟨fun pv => decode_swWord .handshakeStart (d := .stx) rfl (.hssStx pv),
    decode_swWord .logging (d := .stx) rfl .logStxPend, decode_swWord .logging (d := .stx) rfl .logStxIdle,
    fun s => ?_⟩
  have htx {c : Byte} (hc : c ∈ CTRL) : (.next (transmit [c] s) : Result) = .next (emit [.txByte c] s) :=
    congrArg _ (transmit_control hc s)
  exact ⟨htx (by decide), htx (by decide), htx (by decide)⟩

/-- Settles O23: the row transmits LOGCMD, whatever it is, and the default one has no byte to stuff. -/
theorem dleInHandshakeStartRequestsLogging : Obligations.DleInHandshakeStartRequestsLogging := by
  refine ⟨fun pv => decode_swWord .handshakeStart (d := .dle) rfl (.hssDle pv), fun s => ⟨rfl, fun hcmd => ?_⟩⟩
  rw [hcmd]
  decide

/-- Settles O24: both kinds select the row, and the row does nothing. -/
theorem handshakeStartIgnoresNakAndData : Obligations.HandshakeStartIgnoresNakAndData :=
  ⟨fun pv => decode_swWord .handshakeStart (d := .nak) rfl (.hssIgn pv (.inl rfl)),
    fun pv blk c hblk => decode_swWord .handshakeStart (d := .data blk c) (data_wf hblk c) (.hssIgn pv (.inr rfl)),
    fun _ _ => rfl⟩

/-- Settles O25: the row writes SS alone. -/
theorem dleInHandshakeConfirmEntersLogging : Obligations.DleInHandshakeConfirmEntersLogging :=
  ⟨fun pv => decode_swWord .handshakeConfirm (d := .dle) rfl (.hscDle pv), fun _ => rfl⟩

/-- Settles O26: every kind but DLE selects the row, which does not read the delivery. -/
theorem otherDeliveryRejectsTheHandshake : Obligations.OtherDeliveryRejectsTheHandshake :=
  ⟨rfl, fun pv => decode_swWord .handshakeConfirm (d := .stx) rfl (.hscRej pv nofun),
    fun pv => decode_swWord .handshakeConfirm (d := .nak) rfl (.hscRej pv nofun),
    fun pv blk c hblk => decode_swWord .handshakeConfirm (d := .data blk c) (data_wf hblk c) (.hscRej pv nofun),
    fun _ _ => rfl⟩

/-- Settles O27: PBUF is too long to be a control byte, so it is framed. -/
theorem pendingCommandIsSentOnce : Obligations.PendingCommandIsSentOnce := by
  refine ⟨decode_swWord .logging (d := .dle) rfl .logDleSend, fun s => ⟨?_, ?_⟩⟩
  · exact congrArg Except.ok (encoderRow_payload s.pbuf)
  · rw [exec, execScLogDleSend, transmit_pendingBytes]
    rfl

/-- Settles O28: the row only reports. -/
theorem dleWithNothingPendingIsOnlyReported : Obligations.DleWithNothingPendingIsOnlyReported :=
  ⟨rfl, decode_swWord .logging (d := .dle) rfl .logDleNop, fun _ => rfl⟩

/-- The decoder event and the raw DLE are one emission, in this order (R160). -/
theorem execScLogData_emits (d : Delivery) (s : State) :
    execScLogData d s = .next (emit [.dec d.blk d.bcc, .txByte DLE] s) := by
  rw [execScLogData, transmit_control (by decide), decodeOut_eq_emit, emit_emit]
  rfl

/-- Settles O29: both kinds select the row, which hands over the delivery's own operands. -/
theorem dataIsDecodedThenAcknowledged : Obligations.DataIsDecodedThenAcknowledged :=
  ⟨fun pv => decode_swWord .logging (d := .nak) rfl (.logData pv (.inl rfl)),
    fun pv blk c hblk => decode_swWord .logging (d := .data blk c) (data_wf hblk c) (.logData pv (.inr rfl)),
    fun s => ⟨execScLogData_emits .nak s, fun blk c => execScLogData_emits (.data blk c) s⟩⟩

end Sys2Proof.Machine
end

/-! ### Host events (43_host.md R180 to R183) -/

section
namespace Sys2Proof.Machine

@[simp] theorem reqAcks_append (l m : List OutEvent) : reqAcks (l ++ m) = reqAcks l ++ reqAcks m := by
  induction l with
  | nil => rfl
  | cons e l ih => cases e <;> simp [reqAcks, ih]

@[simp] theorem reqAcks_map_txByte (l : List Byte) : reqAcks (l.map .txByte) = [] := by
  induction l with
  | nil => rfl
  | cons b l ih => simp [reqAcks, ih]

@[simp] theorem reqAcks_diagEvents (c : DiagCode) (cfg : Config) : reqAcks (diagEvents c cfg) = [] := by
  cases h : cfg.diagEn <;> simp [diagEvents, reqAcks, h]

/-- What the next event must be answered with: a load with one answer (R181 to R183), anything else with none. -/
def answersDue (s : State) : Option Event → List ReqAnswer
  | some (.req _) => [if s.pv = true ∧ s.cfg.pendPolicy = .reject then .busy else .accepted]
  | _ => []

theorem answersDue_noLoad (s : State) {e : Option Event} (h : ∀ p, e ≠ some (.req p)) : answersDue s e = [] := by
  unfold answersDue
  split
  case h_1 p => exact absurd rfl (h p)
  case h_2 => rfl

/-- OUT grows by a list with these answers. -/
def AppendsAnswers (s t : State) (answers : List ReqAnswer) : Prop := ∃ l, t.out = s.out ++ l ∧ reqAcks l = answers

theorem AppendsAnswers.silent {s t : State} (h : t.out = s.out) : AppendsAnswers s t [] :=
  ⟨[], by rw [h, List.append_nil], rfl⟩

/-- No session row answers a load. -/
theorem delivered_answers {u t : State} {d : Delivery} (h : Delivered u d t) : AppendsAnswers u t [] := by
  cases h with
  | hssIgn | hscDle => exact .silent rfl
  | hssDle | logDleSend => exact ⟨_, rfl, reqAcks_map_txByte _⟩
  | hscRej | logDleNop => exact ⟨_, rfl, reqAcks_diagEvents _ _⟩
  | hssStx | logStxPend | logStxIdle | logData => exact ⟨_, rfl, rfl⟩

/-- The three load rows answer, each as PV and the policy that select it demand; no other row does. -/
theorem stepEffect_answers {s t : State} (h : StepEffect s t) : AppendsAnswers s t (answersDue s s.input.head?) := by
  cases h with
  | reqAccept p hin hp =>
    rw [hin]
    exact ⟨[.reqAck .accepted], rfl, by simp [answersDue, reqAcks, hp]⟩
  | reqBusy p hin hp hq =>
    rw [hin]
    exact ⟨_, rfl, by simp [answersDue, reqAcks, hp, hq]⟩
  | reqOverwrite p hin hp hq =>
    rw [hin]
    exact ⟨[.reqAck .accepted], rfl, by simp [answersDue, reqAcks, hq]⟩
  | resyncStx hin _ hd | idleStx hin _ hd | idleDle hin _ hd | idleNak hin _ hd =>
    rw [hin]
    exact (delivered_answers hd :)
  | bccOk _ _ hin _ _ _ hd =>
    rw [hin]
    exact (delivered_answers hd :)
  | collOvf _ hin | dlesOvf hin | dlesErr _ hin =>
    rw [hin]
    exact ⟨_, rfl, reqAcks_diagEvents _ _⟩
  | bccBad _ hin =>
    rw [hin]
    exact ⟨_, rfl, by rw [reqAcks_append, reqAcks_diagEvents]; rfl⟩
  | noEvent hin | discard _ hin | start _ hin | collDle hin | append _ hin | lit hin | etx hin | rxt hin | rst hin =>
    rw [hin]
    exact .silent rfl

/-- Settles O56: what a step appends to OUT is determined, and its answers are those that are due. -/
theorem eachRequestIsAnsweredOnce : Obligations.EachRequestIsAnsweredOnce := by
  intro s t l h hout
  obtain ⟨l', hout', hdue⟩ := stepEffect_answers (step_effect h)
  obtain rfl : l = l' := List.append_cancel_left (hout.symm.trans hout')
  constructor
  · intro p hp
    rw [hdue, hp, answersDue]
  · intro hp
    rw [hdue, answersDue_noLoad s hp]

/-- Settles O39: the row does nothing. -/
theorem timeoutChangesNothing : Obligations.TimeoutChangesNothing := ⟨rfl, fun _ => rfl⟩

/-- The row of a load that is accepted, whether the slot was empty (R181) or is overwritten (R183). -/
theorem ackOut_loadPending (p : Payload) (s : State) :
    ackOut .accepted (loadPending p s) = { s with pbuf := p, pv := true, out := s.out ++ [.reqAck .accepted] } := rfl

/-- Settles O40: with PV = 0 the policy is not looked at. -/
theorem requestFillsTheEmptySlot : Obligations.RequestFillsTheEmptySlot :=
  ⟨fun _ _ => rfl, fun s p => congrArg Host.Outcome.next (ackOut_loadPending p s)⟩

/-- The answer and the diagnostic are one emission, in this order (R182, R207). -/
theorem execEvReqBusy_emits (p : Payload) (s : State) :
    execEvReqBusy p s = .next (emit ([.reqAck .busy] ++ diagEvents .slotBusy s.cfg) s) := by
  rw [execEvReqBusy, ackOut_eq_emit, diag_eq_emit, emit_emit, emit_cfg]

/-- Settles O41: the row emits and writes nothing else. -/
theorem requestIntoAFullSlotIsRejected : Obligations.RequestIntoAFullSlotIsRejected :=
  ⟨rfl, fun _ => rfl, fun s p => execEvReqBusy_emits p s⟩

/-- Settles O42: the row does what EV.REQ.ACCEPT does. -/
theorem requestIntoAFullSlotOverwrites : Obligations.RequestIntoAFullSlotOverwrites :=
  ⟨fun _ => rfl, fun s p => congrArg Host.Outcome.next (ackOut_loadPending p s)⟩

end Sys2Proof.Machine
end

/-! ### Nothing stops the machine (60_exceptions.md R208, R216) -/

section
namespace Sys2Proof.Machine

/-- Settles O2: legal codes exclude the reserved-code faults. -/
theorem nothingHappensBetweenEvents : Obligations.NothingHappensBetweenEvents :=
  fun s hlegal hin => step_no_event ((reservedCode_none_iff s).2 hlegal) hin

theorem inv_legalCodes {s : State} (h : Inv s) : LegalCodes s := by
  refine ⟨?_, h.session⟩
  cases hf : FrameState.ofCode s.fs with
  | none =>
    have hr := h.receiver
    rw [ReceiverInv, hf] at hr
    exact hr.elim
  | some f => rfl

theorem holdsBlock_len_le {s : State} {tail : List Byte} (h : HoldsBlock s tail) : s.len ≤ s.cfg.maxBlock := by
  obtain ⟨_, _, _, _, hmax, _⟩ := h
  exact hmax

/-- LEN stays within MAX_BLOCK, in a block and between blocks (R24). -/
theorem inv_len_le {s : State} (h : Inv s) : s.len ≤ s.cfg.maxBlock := by
  obtain ⟨f, hf⟩ := Option.isSome_iff_exists.1 (inv_legalCodes h).1
  have hr := (receiverInv_iff (frameState_code_of_ofCode hf)).1 h.receiver
  cases f with
  | resync | idle => exact hr.trans_le (Nat.zero_le _)
  | collecting | dleSeen | verifyBcc => exact holdsBlock_len_le hr

/-- The invariant does not speak of the events still to come. -/
theorem inv_input {s : State} (h : Inv s) (l : List Event) : Inv { s with input := l } :=
  ⟨h.maxBlock, h.bufWf, h.session, h.receiver⟩

/-- Under the invariant every event selects a row: no code is reserved and no guard sees LEN > MAX_BLOCK (R84). -/
theorem inv_rowOf {s : State} (h : Inv s) (e : Event) : ∃ i, rowOf s e = .ok i := by
  cases e with
  | rxb b =>
    obtain ⟨f, hf⟩ := Option.isSome_iff_exists.1 (inv_legalCodes h).1
    have hroom : room s ≠ .beyond := fun hr => (inv_len_le h).not_gt ((room_beyond_iff s).1 hr)
    rw [rowOf, stepWord, decode_receiverWord, frameState_code_of_ofCode hf]
    exact receiverRow_total f b (sumZero s b) hroom
  | rxt => exact ⟨_, rfl⟩
  | req p => exact ⟨_, rfl⟩
  | rst => exact ⟨_, rfl⟩

/-- The receiver row that a byte selects completes: SS is legal for the rows that deliver, and BUF has the elements that
the others use (R50). -/
theorem receiverSelects_completes {s : State} (h : Inv s) {f : FrameState} {b : Byte} {z : Bool} {i : Instr}
    (hi : ReceiverSelects f b (room s) z i) : ∃ t, exec i s = .next t := by
  have hsize : s.buf.length = s.cfg.maxBlock := h.bufWf
  have happend (hr : room s = .left) : s.len < s.buf.length := hsize ▸ (room_left_iff s).1 hr
  generalize hr : room s = r at hi
  cases hi with
  | resyncStx => exact deliver_completes (s := setFs .idle s) h.session .stx
  | idleStx => exact deliver_completes h.session .stx
  | idleDle => exact deliver_completes h.session .dle
  | idleNak => exact deliver_completes h.session .nak
  | idleStart => exact execRxIdleStart_inside (hsize ▸ h.maxBlock) b
  | collAppend => exact ⟨_, appendByte_room (happend hr) b⟩
  | dlesLit => exact ⟨_, execRxDlesLit_stores (happend hr)⟩
  | bccOk =>
    have hheld : heldBlock s = some _ := memory_firstBytes_inside (hsize ▸ inv_len_le h)
    obtain ⟨t, ht⟩ := deliver_completes (s := setFs .idle { s with acc := s.acc ^^^ b, len := 0 }) h.session _
    exact ⟨t, (execRxBccOk_delivers hheld b).trans ht⟩
  | _ => exact ⟨_, rfl⟩

theorem requestRow_completes (p : Payload) (pv : Bool) (policy : PendPolicy) (s : State) :
    ∃ t, exec (requestRow p pv policy) s = .next t := by
  cases pv with
  | false => exact ⟨_, rfl⟩
  | true => cases policy <;> exact ⟨_, rfl⟩

/-- Under the invariant the row that an event selects completes. -/
theorem inv_exec {s : State} (h : Inv s) {e : Event} {i : Instr} (hi : rowOf s e = .ok i) :
    ∃ t, exec i s = .next t := by
  cases e with
  | rxb b =>
    rw [rowOf] at hi
    obtain ⟨_, _, _, hsel⟩ := decode_rw_eq_ok_iff.1 hi
    exact receiverSelects_completes h hsel
  | rxt => cases hi; exact ⟨_, rfl⟩
  | req p => cases hi; exact requestRow_completes p s.pv s.cfg.pendPolicy s
  | rst => cases hi; exact ⟨_, rfl⟩

/-- Settles O46: legal codes, a row for every event, and a next state from that row. -/
theorem noInputStopsTheMachine : Obligations.NoInputStopsTheMachine := by
  intro s h
  have hc : reservedCode s = none := (reservedCode_none_iff s).2 (inv_legalCodes h)
  cases hin : s.input with
  | nil => exact ⟨s, step_no_event hc hin⟩
  | cons e rest =>
    obtain ⟨i, hi⟩ := inv_rowOf h e
    rw [step_event hc hin hi]
    exact inv_exec (inv_input h rest) ((rowOf_input s rest e).trans hi)

end Sys2Proof.Machine
end

/-! ### What a step reports (60_exceptions.md R202, R210) -/

section
namespace Sys2Proof.Machine

@[simp] theorem diags_append (l m : List OutEvent) : diags (l ++ m) = diags l ++ diags m := by
  induction l with
  | nil => rfl
  | cons e l ih => cases e <;> simp [diags, ih]

@[simp] theorem diags_map_txByte (l : List Byte) : diags (l.map .txByte) = [] := by
  induction l with
  | nil => rfl
  | cons b l ih => simp [diags, ih]

theorem diags_diagEvents (c : DiagCode) (cfg : Config) : diags (diagEvents c cfg) = if cfg.diagEn then [c] else [] := by
  cases h : cfg.diagEn <;> simp [diagEvents, diags, h]

/-- OUT grows by a list that reports nothing, or what one `Diag` reports. -/
def AppendsReport (s t : State) : Prop :=
  ∃ l, t.out = s.out ++ l ∧ (diags l = [] ∨ ∃ c, diags l = diags (diagEvents c s.cfg))

theorem AppendsReport.silent {s t : State} (h : t.out = s.out) : AppendsReport s t :=
  ⟨[], by rw [h, List.append_nil], .inl rfl⟩

theorem AppendsReport.noDiag {s t : State} {l : List OutEvent} (h : t.out = s.out ++ l) (hl : diags l = []) :
    AppendsReport s t := ⟨l, h, .inl hl⟩

theorem AppendsReport.diag {s t : State} {l : List OutEvent} {c : DiagCode} (h : t.out = s.out ++ l)
    (hl : diags l = diags (diagEvents c s.cfg)) : AppendsReport s t := ⟨l, h, .inr ⟨c, hl⟩⟩

/-- A delivery reports at most a rejected handshake or an unexpected DLE. -/
theorem delivered_report {u t : State} {d : Delivery} (h : Delivered u d t) : AppendsReport u t := by
  cases h with
  | hssIgn | hscDle => exact .silent rfl
  | hssDle | logDleSend => exact .noDiag rfl (diags_map_txByte _)
  | hssStx | logStxPend | logStxIdle | logData => exact .noDiag rfl rfl
  | hscRej | logDleNop => exact .diag rfl rfl

/-- A row that reports does not deliver, so the two sources of diagnostics exclude each other. -/
theorem stepEffect_report {s t : State} (h : StepEffect s t) : AppendsReport s t := by
  cases h with
  | resyncStx _ _ hd | idleStx _ _ hd | idleDle _ _ hd | idleNak _ _ hd => exact (delivered_report hd :)
  | bccOk _ _ _ _ _ _ hd => exact (delivered_report hd :)
  | collOvf | dlesOvf | dlesErr => exact .diag rfl rfl
  | bccBad => exact .diag rfl (by rw [diags_append]; exact List.append_nil _)
  | reqBusy => exact .diag rfl rfl
  | reqAccept | reqOverwrite => exact .noDiag rfl rfl
  | _ => exact .silent rfl

/-- Settles O55: what a step appends to OUT is determined, and one `Diag` is one diagnostic, or none without DIAG_EN. -/
theorem atMostOneDiagnosticAStep : Obligations.AtMostOneDiagnosticAStep := by
  intro s t l h hout
  obtain ⟨l', hout', hreport⟩ := stepEffect_report (step_effect h)
  obtain rfl : l = l' := List.append_cancel_left (hout.symm.trans hout')
  rcases hreport with hl | ⟨c, hl⟩
  · simp [hl]
  · rw [hl, diags_diagEvents]
    cases s.cfg.diagEn <;> simp

/-! ### Switching diagnostics off (R202) -/

@[simp] theorem withoutDiags_append (l m : List OutEvent) : withoutDiags (l ++ m) = withoutDiags l ++ withoutDiags m := by
  induction l with
  | nil => rfl
  | cons e l ih => cases e <;> simp [withoutDiags, ih]

@[simp] theorem withoutDiags_map_txByte (l : List Byte) : withoutDiags (l.map .txByte) = l.map .txByte := by
  induction l with
  | nil => rfl
  | cons b l ih => simp [withoutDiags, ih]

@[simp] theorem withoutDiags_diagEvents (c : DiagCode) (cfg : Config) : withoutDiags (diagEvents c cfg) = [] := by
  cases h : cfg.diagEn <;> simp [diagEvents, withoutDiags, h]

/-- `s` with DIAG_EN false. -/
def muted (s : State) : State := { s with cfg := { s.cfg with diagEn := false } }

/-- `t` is `s` with DIAG_EN false and, in what was emitted since OUT was `o`, without the diagnostics. -/
def MutedSince (o : List OutEvent) (s t : State) : Prop :=
  ∃ l, s.out = o ++ l ∧ t = { muted s with out := o ++ withoutDiags l }

/-- Both runs stop with one fault, or both go on and agree but for the diagnostics. -/
inductive MutedResult (o : List OutEvent) : Result → Result → Prop where
  | next {s t : State} (h : MutedSince o s t) : MutedResult o (.next s) (.next t)
  | fault (f : Fault) : MutedResult o (.fault f) (.fault f)

theorem MutedResult.of_next {o : List OutEvent} {s : State} {r : Result} (h : MutedResult o (.next s) r) :
    ∃ t, r = .next t ∧ MutedSince o s t := by
  cases h with
  | next h => exact ⟨_, rfl, h⟩

theorem MutedResult.of_fault {o : List OutEvent} {f : Fault} {r : Result} (h : MutedResult o (.fault f) r) :
    r = .fault f := by
  cases h with
  | fault => rfl

theorem MutedResult.andThen {o : List OutEvent} {r r' : Result} {f f' : State → Result} (h : MutedResult o r r')
    (hf : ∀ {s t}, MutedSince o s t → MutedResult o (f s) (f' t)) :
    MutedResult o (Machine.andThen r f) (Machine.andThen r' f') := by
  cases h with
  | next h => exact hf h
  | fault f => exact .fault f

theorem mutedSince_start (s : State) : MutedSince s.out s (muted s) :=
  ⟨[], (List.append_nil _).symm, by rw [withoutDiags, List.append_nil]; rfl⟩

section
variable {o : List OutEvent} {s t : State} (h : MutedSince o s t)
include h

/-- The two states differ in DIAG_EN and OUT alone, so what any rule reads besides is the same. -/
theorem mutedSince_shape : ∃ out, t = { muted s with out := out } := by
  obtain ⟨m, -, rfl⟩ := h
  exact ⟨_, rfl⟩

theorem mutedSince_input (l : List Event) : MutedSince o { s with input := l } { t with input := l } := by
  obtain ⟨m, hout, rfl⟩ := h
  exact ⟨m, hout, rfl⟩

theorem mutedSince_setFs (f : FrameState) : MutedSince o (setFs f s) (setFs f t) := by
  obtain ⟨m, hout, rfl⟩ := h
  exact ⟨m, hout, rfl⟩

theorem mutedSince_receiver (f : FrameState) (len : Nat) (acc : Byte) :
    MutedSince o (setFs f { s with len := len, acc := acc }) (setFs f { t with len := len, acc := acc }) := by
  obtain ⟨m, hout, rfl⟩ := h
  exact ⟨m, hout, rfl⟩

theorem mutedSince_setSs (x : SessionState) : MutedSince o (setSs x s) (setSs x t) := by
  obtain ⟨m, hout, rfl⟩ := h
  exact ⟨m, hout, rfl⟩

theorem mutedSince_clearPending : MutedSince o { s with pv := false } { t with pv := false } := by
  obtain ⟨m, hout, rfl⟩ := h
  exact ⟨m, hout, rfl⟩

theorem mutedSince_loadPending (p : Payload) : MutedSince o (loadPending p s) (loadPending p t) := by
  obtain ⟨m, hout, rfl⟩ := h
  exact ⟨m, hout, rfl⟩

theorem mutedSince_applyReset : MutedSince o (applyReset s) (applyReset t) := by
  obtain ⟨m, hout, rfl⟩ := h
  exact ⟨m, hout, rfl⟩

/-- Two emissions that differ in diagnostics alone. -/
theorem mutedSince_emit {l l' : List OutEvent} (hl : withoutDiags l = l') : MutedSince o (emit l s) (emit l' t) := by
  obtain ⟨m, hout, rfl⟩ := h
  refine ⟨m ++ l, ?_, ?_⟩
  · rw [emit_out, hout, List.append_assoc]
  · rw [withoutDiags_append, hl, ← List.append_assoc]
    rfl

theorem mutedSince_tx (l : List Byte) : MutedSince o (tx l s) (tx l t) :=
  mutedSince_emit h (withoutDiags_map_txByte l)

/-- `Diag` emits nothing in the muted run. -/
theorem mutedSince_diag (c : DiagCode) : MutedSince o (diag c s) (diag c t) := by
  have hoff : diagEvents c t.cfg = [] := by
    obtain ⟨_, rfl⟩ := mutedSince_shape h
    rfl
  rw [diag_eq_emit, diag_eq_emit, hoff]
  exact mutedSince_emit h (withoutDiags_diagEvents c s.cfg)

theorem mutedSince_abandonBlock (c : DiagCode) : MutedSince o (abandonBlock c s) (abandonBlock c t) := by
  obtain ⟨_, rfl⟩ := mutedSince_shape h
  exact mutedSince_diag (mutedSince_receiver h .resync 0 s.acc) c

theorem mutedResult_bufWrite (i : Nat) (b : Byte) : MutedResult o (bufWrite i b s) (bufWrite i b t) := by
  obtain ⟨m, hout, rfl⟩ := h
  rcases Nat.lt_or_ge i s.buf.length with hi | hi
  · rw [bufWrite_inside hi, bufWrite_inside (by exact hi)]
    exact .next ⟨m, hout, rfl⟩
  · rw [bufWrite_outside hi, bufWrite_outside (by exact hi)]
    exact .fault _

theorem mutedResult_appendByte (b : Byte) : MutedResult o (appendByte b s) (appendByte b t) := by
  obtain ⟨_, rfl⟩ := mutedSince_shape h
  refine (mutedResult_bufWrite h s.len b).andThen fun hu => .next ?_
  obtain ⟨m, hout, rfl⟩ := hu
  exact ⟨m, hout, rfl⟩

/-- A delivery selects the same session row in both runs. -/
theorem mutedResult_deliver (d : Delivery) : MutedResult o (deliver d s) (deliver d t) := by
  have hselect : sessionRow meaningRows t.ss d t.pv = sessionRow meaningRows s.ss d s.pv := by
    obtain ⟨_, rfl⟩ := mutedSince_shape h
    rfl
  rw [deliver, deliver, hselect]
  cases hrow : sessionRow meaningRows s.ss d s.pv with
  | error e => exact .fault _
  | ok row =>
    rcases sessionRow_ok hrow with rfl | rfl | rfl | rfl | rfl | rfl | rfl | ⟨rfl, -⟩ | rfl | rfl
    · exact .next (mutedSince_tx h _)
    · obtain ⟨_, rfl⟩ := mutedSince_shape h
      exact .next (mutedSince_setSs (mutedSince_tx h _) .handshakeConfirm)
    · exact .next h
    · exact .next (mutedSince_setSs h .logging)
    · exact .next (mutedSince_diag (mutedSince_setSs h .handshakeStart) .handshakeRejection)
    · exact .next (mutedSince_tx h _)
    · exact .next (mutedSince_tx h _)
    · obtain ⟨_, rfl⟩ := mutedSince_shape h
      exact .next (mutedSince_setSs (mutedSince_clearPending (mutedSince_tx h _)) .handshakeStart)
    · exact .next (mutedSince_diag h .unexpectedDle)
    · exact .next (mutedSince_tx (mutedSince_emit h rfl) _)

/-- Both runs hold the same block, or stop at the same index. -/
theorem mutedResult_bccOk (b : Byte) : MutedResult o (execRxBccOk b s) (execRxBccOk b t) := by
  obtain ⟨_, rfl⟩ := mutedSince_shape h
  rcases Nat.lt_or_ge s.buf.length s.len with hlen | hlen
  · rw [execRxBccOk_outside hlen, execRxBccOk_outside (by exact hlen)]
    exact .fault _
  · have hheld : heldBlock s = some _ := memory_firstBytes_inside hlen
    rw [execRxBccOk_delivers hheld, execRxBccOk_delivers (by exact hheld)]
    exact mutedResult_deliver (mutedSince_receiver h .idle 0 _) _

theorem mutedResult_receiverRow {f : FrameState} {i : Instr} (hi : ReceiverRowIn f i) :
    MutedResult o (exec i s) (exec i t) := by
  obtain ⟨_, rfl⟩ := mutedSince_shape h
  cases hi with
  | resyncStx => exact mutedResult_deliver (mutedSince_setFs h .idle) .stx
  | resyncDiscard _ => exact .next h
  | idleStx => exact mutedResult_deliver h .stx
  | idleDle => exact mutedResult_deliver h .dle
  | idleNak => exact mutedResult_deliver h .nak
  | idleStart b =>
    exact (mutedResult_bufWrite h 0 b).andThen fun hu => .next (mutedSince_receiver hu .collecting 1 b)
  | collDle => exact .next (mutedSince_receiver h .dleSeen s.len _)
  | collAppend b => exact mutedResult_appendByte h b
  | dlesLit =>
    exact (mutedResult_appendByte h DLE).andThen fun hu => .next (mutedSince_setFs hu .collecting)
  | dlesEtx => exact .next (mutedSince_receiver h .verifyBcc s.len _)
  | collOvf _ | dlesOvf => exact .next (mutedSince_abandonBlock h .oversizedBlock)
  | dlesErr _ => exact .next (mutedSince_abandonBlock h .unexpectedAfterEscape)
  | bccOk b => exact mutedResult_bccOk h b
  | bccBad b => exact .next (mutedSince_tx (mutedSince_diag (mutedSince_receiver h .idle 0 _) .checksumMismatch) _)

/-- The row that the next event selects does the same in both runs. -/
theorem mutedResult_exec {e : Event} {i : Instr} (hi : rowOf s e = .ok i) : MutedResult o (exec i s) (exec i t) := by
  cases e with
  | rxb b =>
    rw [rowOf, stepWord, decode_receiverWord] at hi
    obtain ⟨f, -, hrow⟩ := receiverRow_ok hi
    exact mutedResult_receiverRow h hrow
  | rxt => cases hi; exact .next h
  | req p =>
    have hreq : requestRow p s.pv s.cfg.pendPolicy = i := Except.ok.inj hi
    unfold requestRow at hreq
    split at hreq
    · split at hreq <;> cases hreq
      · exact .next (mutedSince_diag (mutedSince_emit h rfl) .slotBusy)
      · exact .next (mutedSince_emit (mutedSince_loadPending h p) rfl)
    · cases hreq
      exact .next (mutedSince_emit (mutedSince_loadPending h p) rfl)
  | rst => cases hi; exact .next (mutedSince_applyReset h)

end

/-- No guard reads DIAG_EN. -/
theorem rowOf_muted (s : State) (e : Event) : rowOf (muted s) e = rowOf s e := by
  cases e <;> rfl

/-- One step with diagnostics and without: both take the same event and run the same row, or stop alike. -/
theorem mutedResult_step (s : State) : MutedResult s.out (step s) (step (muted s)) := by
  have h := mutedSince_start s
  cases hc : reservedCode s with
  | some f =>
    rw [step_reserved hc, step_reserved (s := muted s) hc]
    exact .fault f
  | none =>
    cases hin : s.input with
    | nil =>
      rw [step_no_event hc hin, step_no_event (s := muted s) hc hin]
      exact .next h
    | cons e rest =>
      cases hi : rowOf s e with
      | error err =>
        rw [step_no_row hc hin hi, step_no_row (s := muted s) hc hin ((rowOf_muted s e).trans hi)]
        exact .fault _
      | ok i =>
        rw [step_event hc hin hi, step_event (s := muted s) hc hin ((rowOf_muted s e).trans hi)]
        exact mutedResult_exec (mutedSince_input h rest) ((rowOf_input s rest e).trans hi)

/-- Settles O57: the two runs of one step agree but for the diagnostics, and a step leaves the parameters. -/
theorem diagnosticsChangeNothingElse : Obligations.DiagnosticsChangeNothingElse := by
  intro s _
  have hmuted := mutedResult_step s
  constructor
  · intro t l ht hout
    obtain ⟨u, hu, m, hm, rfl⟩ := (ht ▸ hmuted).of_next
    obtain rfl : l = m := List.append_cancel_left (hout.symm.trans hm)
    have hcfg : t.cfg = s.cfg := (parametersStayAndOneEventIsConsumed s t ht).1
    refine hu.trans ?_
    rw [muted, hcfg]
  · intro f hf
    exact (hf ▸ hmuted).of_fault

end Sys2Proof.Machine
end

/-! ### The reset row (70_reset_and_hazards.md R230) -/

section
namespace Sys2Proof.Machine

/-- Reset writes the seven elements of R35 and the count of the draws, FS with the code of RX_RESET_STATE. -/
theorem applyReset_writes {s : State} {code : BitVec 3} (hcode : s.cfg.rxResetState.frameState.code = code) :
    applyReset s =
      { s with fs := code, len := 0, acc := 0x00#8, ss := 0b00#2, pv := false, buf := (applyReset s).buf,
               pbuf := (applyReset s).pbuf, draws := (applyReset s).draws } := by
  subst hcode
  rfl

/-- Settles O43: the one value that depends on a parameter is FS, so RX_RESET_STATE's two values are the cases. -/
theorem resetWritesTheResetValues : Obligations.ResetWritesTheResetValues := by
  refine ⟨rfl, fun s => ⟨applyReset s, rfl, applyReset_writes ?_, applyReset_buf_wf s⟩⟩
  cases s.cfg.rxResetState with
  | resync => rfl
  | idle => rfl

end Sys2Proof.Machine
end
